-- ==== Sys2Proof/Word.lean ====
section
/-! DEFINITION. The word types of the BSP: the 32-bit register and address word (00_scope.md R8: REG_BITS = ADDR_W =
COUNT_BITS = 32) and the byte, which is a symbol, a memory location and an output unit (R8: SYMBOL_BITS = OUT_BYTE_BITS = 8). -/

namespace Sys2Proof

/-- A register, an address or a count (00_scope.md R8). BitVec addition is the `mod 2^32` of R11 and R48. -/
abbrev Word := BitVec 32

/-- A symbol, a byte of system memory or an output byte (00_scope.md R8, R10). -/
abbrev Byte := BitVec 8

end Sys2Proof
end

