-- ==== Sys2Proof/Config.lean ====
section
/-! DEFINITION. What is fixed for one machine: the parameters of 00_scope.md R8, the shape of the OPEN platform parameters
(BASE, Admit), and the free values: constants without a body that stand for what the spec calls unspecified. -/

namespace Sys2Proof.Config

/-- W_MIN (00_scope.md R8). -/
def wMin : Nat := 1

/-- W_MAX (00_scope.md R8). -/
def wMax : Nat := 8

/-- REG_WINDOW, the size of the register window in bytes (00_scope.md R8). -/
def regWindow : Nat := 0x40

/-- ID_VALUE (00_scope.md R8, 10_state.md R31). -/
def idValue : Word := 0x42535001#32

/-- The two kinds of access of the platform predicate Admit (20_memory.md R42). -/
inductive AccessKind where
  | read
  | write
  deriving DecidableEq, Repr

/-- A run of `size` addresses from `base`, modulo 2^32, to which the platform admits no access of kind `kind`. -/
structure Region where
  kind : AccessKind
  base : Word
  size : Nat
  deriving DecidableEq, Repr

/-- The OPEN platform parameters (00_scope.md R8), fixed for a machine: BASE; whether the platform routes the master port's
accesses at BASE to BASE + 0x3F to this block's own window (20_memory.md R52); and Admit (20_memory.md R42), as the finite
list of what it refuses, by which every predicate on 2^32 addresses and two kinds can be given.
DESIGN CHOICE, entry 3. -/
structure Platform where
  base : Word
  selfRouted : Bool
  denied : List Region
  deriving DecidableEq, Repr

/-- Free value: the byte of address `a` in the draw numbered `n` (93_implementation_defined.md I3 to I6, "any value"). Entry 9. -/
opaque freeByte (n : Nat) (a : Word) : Byte

/-- Free value: ACC while no operation runs (10_state.md R34, 93_implementation_defined.md I2). Entry 7. -/
opaque freeAcc (n : Nat) : Byte

/-- Free value: BITPOS while no operation runs (10_state.md R34, I2). Entry 7. -/
opaque freeBitpos (n : Nat) : BitVec 3

/-- Free value: IDX while no operation runs (10_state.md R34, I2). Entry 7. -/
opaque freeIdx (n : Nat) : Word

/-- Free value: OIDX while no operation runs (10_state.md R34, I2). Entry 7. -/
opaque freeOidx (n : Nat) : Word

end Sys2Proof.Config
end

