-- ==== Sys2Proof/Syntax.lean ====
section
/-! DEFINITION. What the host can say to the block: the commands (spec/opcode_table.json), the registers of the window
(10_state.md R20) and the register transactions (30_encoding.md R63). -/

namespace Sys2Proof

/-- The commands, one constructor per row of spec/opcode_table.json (30_encoding.md R65). No command has an operand in its
word (R64, R67). -/
inductive Instr where
  /-- NOP, 42_control.md R93. -/
  | nop
  /-- PACK, 40_pack.md R70. -/
  | pack
  /-- CLEAR, 42_control.md R94. -/
  | clear
  deriving DecidableEq, Repr

/-- The registers of the window by name (10_state.md R20); `reserved k` is offset 0x28 + 4k (R38). -/
inductive Reg where
  | cmd
  | status
  | irqEn
  | width
  | inAddr
  | inCount
  | outAddr
  | outCap
  | result
  | id
  | reserved (k : Fin 6)
  deriving DecidableEq, Repr

/-- The size of an access at the register port (43_register_access.md R96): only `word`, 32 bits, is defined. -/
inductive AccessSize where
  | byte
  | half
  | word
  | wide
  | burst
  deriving DecidableEq, Repr

/-- A register transaction (30_encoding.md R63): its kind, its 6-bit byte offset, its size, and the data of a write. -/
inductive Access where
  | read (offset : BitVec 6) (size : AccessSize)
  | write (offset : BitVec 6) (size : AccessSize) (wdata : Word)
  deriving DecidableEq, Repr

end Sys2Proof
end

