-- ==== Sys2Proof/Machine/State.lean ====
section
/-! DEFINITION. The state of the machine as plain data: the registers of 10_state.md, system memory (20_memory.md R41, R42),
the platform's parameters, the turns to come, and what the model records for the host and of the master port. -/

namespace Sys2Proof.Machine

/-- System memory (20_memory.md R41): address and byte pairs in the one canonical form of `Memory.wf`. -/
abbrev Memory := List Host.Cell

/-- The two error kinds, and no others (60_exceptions.md R110). -/
inductive ErrorKind where
  | invalidWidth
  | bufferTooSmall
  deriving DecidableEq, Repr

/-- STATUS (10_state.md R26). ERR is the sum type that 92_eei_decisions.md D6 asks for: `none` is NONE, and code 3 cannot be
written down (R28). DEDUCED, entry 16. -/
structure Status where
  busy : Bool
  done : Bool
  err : Option ErrorKind
  deriving DecidableEq, Repr

/-- The engine's four working registers (10_state.md R33). BITPOS is the bit number that counts down from 7
(90_conflicts.md C1). -/
structure Engine where
  acc : Byte
  bitpos : BitVec 3
  idx : Word
  oidx : Word
  deriving DecidableEq, Repr

/-- One access of the master port: `MemRead(addr, 1)` or `MemWrite(addr, 1, v)` (00_scope.md R12). -/
inductive PortAccess where
  | read (addr : Word)
  | write (addr : Word) (v : Byte)
  deriving DecidableEq, Repr

/-- One turn of one agent (00_scope.md R13). Entry 1. -/
inductive Event where
  /-- HOST: one register transaction (30_encoding.md R63). -/
  | access (a : Access)
  /-- HOST: the loop `POLL`, read until `(rdata & mask) = value` (30_encoding.md R69). -/
  | poll (offset : BitVec 6) (mask value : Word)
  /-- HOST, by its own path: read one byte of system memory (30_encoding.md R69 `MEMR`, 20_memory.md R56). -/
  | memRead (addr : Word)
  /-- HOST, by its own path: write one byte of system memory (30_encoding.md R69 `MEMW`, 20_memory.md R56). -/
  | memWrite (addr : Word) (v : Byte)
  /-- ENGINE: its RUN or FINISH step, whichever is enabled (10_state.md R37). -/
  | engine
  /-- RESET: 70_reset_and_hazards.md R130. -/
  | reset
  deriving DecidableEq, Repr

/-- The machine's state. INVENTORY.md lists every field with its rule and its reset value. -/
structure State where
  /-- WIDTH (10_state.md R21). -/
  width : Word
  /-- IN_ADDR (R22). -/
  inAddr : Word
  /-- IN_COUNT (R23). -/
  inCount : Word
  /-- OUT_ADDR (R24). -/
  outAddr : Word
  /-- OUT_CAP (R25). -/
  outCap : Word
  /-- STATUS (R26). -/
  status : Status
  /-- RESULT (R29). -/
  result : Word
  /-- IRQ_EN.IE (R30). -/
  ie : Bool
  /-- ACC, BITPOS, IDX and OIDX (R33). -/
  engine : Engine
  /-- System memory (20_memory.md R41, R42). -/
  mem : Memory
  /-- BASE and Admit (00_scope.md R8). No step writes it. -/
  platform : Config.Platform
  /-- The model's own: the turns to come, the next one first. Entry 1. -/
  pending : List Event
  /-- The model's own: rdata of the latest register read (30_encoding.md R63). Entry 12. -/
  rdata : Word
  /-- The model's own: the byte the latest host memory read returned. Entry 12. -/
  mdata : Byte
  /-- The model's own: the master port's accesses since the last accept, oldest first. Entry 13. -/
  portLog : List PortAccess
  /-- The model's own: the host has written the input or output range since the accept (20_memory.md R56). Entry 10. -/
  intruded : Bool
  /-- The model's own: how many free values have been drawn. Entry 7. -/
  draws : Nat
  deriving DecidableEq, Repr

/-- Why the machine would stop with a fault. There is no reason: the BSP reports its two errors as completions and has no
trap, no bus error and no other error (60_exceptions.md R111, R113, R114). -/
inductive Fault where
  deriving DecidableEq, Repr

/-- Why the model gives a step no meaning. -/
inductive Refusal where
  /-- Raised by an arm of `exec` whose instruction has no meaning yet. Safe: nothing is claimed of it. -/
  | notModelled (mnemonic : String)
  /-- Raised by a HOST step whose register access is not an aligned 32-bit word (43_register_access.md R96,
  93_implementation_defined.md I9: "refuse the HOST step"). Safe. Entry 15. -/
  | accessNotAdmitted
  /-- Raised by a PACK that would be accepted, whose input or output range holds an address that the platform routes to the
  block's own register window (20_memory.md R52, 93_implementation_defined.md I8: "refuse the operation"). Safe. Entry 5. -/
  | selfTargeting
  deriving DecidableEq, Repr

/-- The platform of `State.reset`. The spec leaves BASE and Admit OPEN. DESIGN CHOICE, entry 3. -/
def resetPlatform : Config.Platform :=
  { base := 0x40000000#32, selfRouted := false, denied := [] }

/-- The machine right after reset (70_reset_and_hazards.md R130): every host-visible register 0, nothing in memory, no turn
pending. The engine's registers are unspecified by R130: DESIGN CHOICE 0, entry 6. -/
def State.reset : State :=
  { width := 0, inAddr := 0, inCount := 0, outAddr := 0, outCap := 0
    status := { busy := false, done := false, err := none }
    result := 0
    ie := false
    engine := { acc := 0, bitpos := 0, idx := 0, oidx := 0 }
    mem := []
    platform := resetPlatform
    pending := []
    rdata := 0
    mdata := 0
    portLog := []
    intruded := false
    draws := 0 }

end Sys2Proof.Machine
end

