-- ==== Sys2Proof/Machine/Ops.lean ====
section
/-! DEFINITION. The shared operations: system memory in its canonical form (20_memory.md R41, R42), address ranges modulo 2^32
(R48, R57), the master port (R43, R44), and what a command does to the completion status: acknowledge, error, accept. -/

namespace Sys2Proof.Machine

/-! ### System memory -/

/-- What an address that memory does not list reads as. The spec gives no contents of system memory: DESIGN CHOICE, the fill
byte of 95_test_vectors.md section 3. Entry 8. -/
def Memory.unlisted : Byte := 0xEE#8

/-- The byte at key `a`. -/
def Memory.read : Memory → Nat → Byte
  | [], _ => Memory.unlisted
  | (b, v) :: rest, a => if b = a then v else Memory.read rest a

/-- Memory with byte `v` at key `a`; the value an unlisted address reads as is not listed. -/
def Memory.write : Memory → Nat → Byte → Memory
  | [], a, v => if v = Memory.unlisted then [] else [(a, v)]
  | (b, w) :: rest, a, v =>
    if a < b then
      if v = Memory.unlisted then (b, w) :: rest else (a, v) :: (b, w) :: rest
    else if a = b then
      if v = Memory.unlisted then rest else (a, v) :: rest
    else (b, w) :: Memory.write rest a v

/-- The canonical form: keys below 2^32 (20_memory.md R41) and strictly rising, and no entry equal to what an unlisted
address reads as. -/
def Memory.wf : Memory → Bool
  | [] => true
  | (a, v) :: rest =>
    decide (a < 2 ^ 32) && v != Memory.unlisted && rest.all (fun c => decide (a < c.1)) && Memory.wf rest

/-- Memory in which each of the `n` bytes from `a`, modulo 2^32, is the free byte of draw `draw` (93_implementation_defined.md
I3, I5, I6: "any value for each byte"). Entry 9. -/
def Memory.scramble (draw : Nat) (a : Word) : Nat → Memory → Memory
  | 0, m => m
  | n + 1, m =>
    let b := a + BitVec.ofNat 32 n
    Memory.write (Memory.scramble draw a n m) b.toNat (Config.freeByte draw b)

/-- The byte of system memory at address `a`. -/
def State.byteAt (s : State) (a : Word) : Byte := s.mem.read a.toNat

/-- The state with byte `v` at address `a` of system memory. -/
def State.setByte (s : State) (a : Word) (v : Byte) : State := { s with mem := s.mem.write a.toNat v }

/-! ### Address ranges -/

/-- Address `x` is one of the `n` addresses from `a`, modulo 2^32 (20_memory.md R48). -/
def inRange (a : Word) (n : Nat) (x : Word) : Bool := decide ((x - a).toNat < n)

/-- The `n` addresses from `a` and the `m` addresses from `b` share one (20_memory.md R57): one range holds the other's
first address. -/
def rangesMeet (a : Word) (n : Nat) (b : Word) (m : Nat) : Bool :=
  (decide (0 < m) && inRange a n b) || (decide (0 < n) && inRange b m a)

/-! ### The master port -/

/-- The platform refuses this access: some refused region of its kind holds the address. -/
def regionHolds (k : Config.AccessKind) (a : Word) (r : Config.Region) : Bool :=
  r.kind == k && inRange r.base r.size a

/-- Admit(addr, kind) (20_memory.md R42). -/
def portAdmits (p : Config.Platform) (a : Word) (k : Config.AccessKind) : Bool :=
  !p.denied.any (regionHolds k a)

/-- `MemRead(addr, 1)` at the master port (00_scope.md R12, 20_memory.md R43): the byte, and the state with the access
recorded; none where the platform has not admitted it, and then the step does not exist (R42). Entries 4 and 13. -/
def State.portRead (s : State) (a : Word) : Option (Byte × State) :=
  if portAdmits s.platform a .read then
    some (s.byteAt a, { s with portLog := s.portLog ++ [.read a] })
  else none

/-- `MemWrite(addr, 1, v)` at the master port (00_scope.md R12, 20_memory.md R44); none as for `portRead`. -/
def State.portWrite (s : State) (a : Word) (v : Byte) : Option State :=
  if portAdmits s.platform a .write then
    some { s.setByte a v with portLog := s.portLog ++ [.write a v] }
  else none

/-! ### Completion: acknowledge, error, accept -/

/-- DONE, ERR and RESULT cleared: the acknowledgement of a completion by CLEAR or by PACK (60_exceptions.md R115, 42_control.md
R94, 40_pack.md R70). It stands beside `raiseError` as the return from an error; the BSP has no other (R115). -/
def State.acknowledge (s : State) : State :=
  { s with status := { s.status with done := false, err := none }, result := 0 }

/-- Error completion, `raise E` (60_exceptions.md R111): ERR is the kind, DONE = 1, RESULT = 0, and nothing else moves: no
mode, no saved state, no vector (R114). -/
def State.raiseError (e : ErrorKind) (s : State) : State :=
  { s with status := { s.status with done := true, err := some e }, result := 0 }

/-- Accept (40_pack.md R74): the engine's registers are initialised and BUSY is set. The model's record of the operation
starts afresh (entries 10 and 13). -/
def State.accept (s : State) : State :=
  { s with
    status := { s.status with busy := true }
    engine := { acc := 0x00#8, bitpos := 7#3, idx := 0#32, oidx := 0#32 }
    portLog := []
    intruded := false }

/-- The engine's registers when no operation runs: unspecified (10_state.md R34), so free values. Entry 7. -/
def freeEngine (n : Nat) : Engine :=
  { acc := Config.freeAcc n, bitpos := Config.freeBitpos n, idx := Config.freeIdx n, oidx := Config.freeOidx n }

end Sys2Proof.Machine
end

