-- ==== Sys2Proof/Machine/Flags.lean ====
section
/-! DEFINITION. The status fields as software reads them: the code of ERR (10_state.md R28), the STATUS word (R26), the IRQ_EN
word (R30), and the irq output (R35). The BSP has no other flags (R36). -/

namespace Sys2Proof.Machine

/-- code(E) (60_exceptions.md R110, R111). -/
def ErrorKind.code : ErrorKind → BitVec 2
  | .invalidWidth => 1#2
  | .bufferTooSmall => 2#2

/-- STATUS.ERR (10_state.md R28): 0 is NONE. -/
def errCode : Option ErrorKind → BitVec 2
  | none => 0#2
  | some e => e.code

/-- STATUS as a word: {28'b0, ERR[1:0], DONE, BUSY} (43_register_access.md R98, 10_state.md R26). -/
def Status.word (t : Status) : Word :=
  0#28 ++ errCode t.err ++ BitVec.ofBool t.done ++ BitVec.ofBool t.busy

/-- IRQ_EN as a word: {31'b0, IE} (43_register_access.md R98, 10_state.md R30). -/
def State.irqEnWord (s : State) : Word := 0#31 ++ BitVec.ofBool s.ie

/-- The irq output: STATUS.DONE & IRQ_EN.IE, level, active high (10_state.md R35, 60_exceptions.md R117). -/
def State.irq (s : State) : Bool := s.status.done && s.ie

/-- The status of a success (41_datapath.md R84): BUSY = 0, DONE = 1, ERR = 0. -/
def Status.success : Status := { busy := false, done := true, err := none }

/-- The status after reset (70_reset_and_hazards.md R130): all zero. -/
def Status.idle : Status := { busy := false, done := false, err := none }

end Sys2Proof.Machine
end

