-- ==== Sys2Proof/WellFormed.lean ====
section
/-! DEFINITION. Which terms of the syntax the spec defines. A command has no operand (30_encoding.md R64), so every command
is well-formed; a register transaction is well-formed when the port admits it (43_register_access.md R96). -/

namespace Sys2Proof

/-- Every command is well-formed: none carries an operand (30_encoding.md R64, R68). -/
def Instr.wf : Instr → Bool
  | .nop => true
  | .pack => true
  | .clear => true

/-- 43_register_access.md R96: the offset is word aligned, offset[1:0] = 00. A 6-bit offset is always in the window (R63). -/
def offsetAligned (offset : BitVec 6) : Bool := offset.extractLsb' 0 2 == 0#2

/-- 43_register_access.md R96: 32 bits wide and aligned. -/
def Access.wf : Access → Bool
  | .read offset size => size == .word && offsetAligned offset
  | .write offset size _ => size == .word && offsetAligned offset

end Sys2Proof
end

