-- ==== Sys2Proof/Machine/Operands.lean ====
section
/-! DEFINITION. The operands of PACK (30_encoding.md R67): the checks on them (40_pack.md R71 to R73), the ranges they name
(20_memory.md R43, R44, R57) and the derived phase (10_state.md R37); and the admission of a register transaction
(43_register_access.md R96). -/

namespace Sys2Proof.Machine

/-- The width check on the full 32-bit value (40_pack.md R71): 1 <= WIDTH <= 8. -/
def State.widthLegal (s : State) : Bool :=
  decide (Config.wMin ≤ s.width.toNat) && decide (s.width.toNat ≤ Config.wMax)

/-- ceil_div(a, b) (00_scope.md R11). -/
def ceilDiv (a b : Nat) : Nat := (a + b - 1) / b

/-- REQ = ceil_div(IN_COUNT * WIDTH, 8), exact (40_pack.md R72). -/
def State.req (s : State) : Nat := ceilDiv (s.inCount.toNat * s.width.toNat) 8

/-- The capacity check (40_pack.md R73): OUT_CAP >= REQ. -/
def State.capacityEnough (s : State) : Bool := decide (s.req ≤ s.outCap.toNat)

/-- The address of symbol `j` (20_memory.md R43, R48). -/
def State.inputAddr (s : State) (j : Nat) : Word := s.inAddr + BitVec.ofNat 32 j

/-- The address of output byte `k` (20_memory.md R44, R48). -/
def State.outputAddr (s : State) (k : Nat) : Word := s.outAddr + BitVec.ofNat 32 k

/-- `a` is in the input range {(IN_ADDR + j) mod 2^32 : j < N} (20_memory.md R57). -/
def State.inInput (s : State) (a : Word) : Bool := inRange s.inAddr s.inCount.toNat a

/-- `a` is in the output range {(OUT_ADDR + k) mod 2^32 : k < REQ} (20_memory.md R57). -/
def State.inOutput (s : State) (a : Word) : Bool := inRange s.outAddr s.req a

/-- The input and output ranges share an address (20_memory.md R57). -/
def State.overlaps (s : State) : Bool := rangesMeet s.inAddr s.inCount.toNat s.outAddr s.req

/-- The input or output range holds an address that the platform routes to the block's own window, BASE to BASE + 0x3F
(20_memory.md R52). Entry 5. -/
def State.selfTargets (s : State) : Bool :=
  s.platform.selfRouted &&
    (rangesMeet s.inAddr s.inCount.toNat s.platform.base Config.regWindow ||
      rangesMeet s.outAddr s.req s.platform.base Config.regWindow)

/-- The phases (10_state.md R37). -/
inductive Phase where
  | idle
  | run
  | finish
  deriving DecidableEq, Repr

/-- The phase, derived from the state (10_state.md R37); none in a state no run reaches, BUSY = 1 with IDX > IN_COUNT.
Entry 20. -/
def State.phase (s : State) : Option Phase :=
  if s.status.busy = false then some .idle
  else if s.engine.idx.toNat < s.inCount.toNat then some .run
  else if s.engine.idx = s.inCount then some .finish
  else none

/-- The register port admits the transaction (43_register_access.md R96). -/
def admitsAccess (a : Access) : Bool := a.wf

end Sys2Proof.Machine
end

