-- ==== Sys2Proof/Machine/Engine.lean ====
section
/-! DEFINITION. The packing engine (41_datapath.md): symbol extraction (R80), the placement of one bit (R81), the RUN step
(R82), the FINISH step (R84), and the engine's turn (10_state.md R37). -/

namespace Sys2Proof.Machine

/-- Symbol extraction: v = s & mask(W), the low W bits (41_datapath.md R80). -/
def maskSymbol (w : Nat) (sym : Byte) : Byte := sym &&& BitVec.ofNat 8 (2 ^ w - 1)

/-- ACC[BITPOS] <- b (41_datapath.md R81). -/
def setBit (acc : Byte) (p : BitVec 3) (b : Bool) : Byte :=
  (acc &&& ~~~(1#8 <<< p.toNat)) ||| ((BitVec.ofBool b).zeroExtend 8 <<< p.toNat)

/-- PutBit(b) (41_datapath.md R81): the bit goes to the cursor; a byte that is now full is written and the cursor moves to the
MSB of the next. None where the write is not admitted (20_memory.md R42). -/
def State.putBit (s : State) (b : Bool) : Option State :=
  let acc := setBit s.engine.acc s.engine.bitpos b
  if s.engine.bitpos = 0#3 then
    (s.portWrite (s.outAddr + s.engine.oidx) acc).map fun t =>
      { t with engine := { t.engine with acc := 0x00#8, bitpos := 7#3, oidx := t.engine.oidx + 1#32 } }
  else
    some { s with engine := { s.engine with acc := acc, bitpos := s.engine.bitpos - 1#3 } }

/-- `for i = n-1 downto 0: PutBit(v[i])` (41_datapath.md R82). -/
def State.putBits (v : Byte) : Nat → State → Option State
  | 0, s => some s
  | n + 1, s => (s.putBit (v.getLsbD n)).bind (State.putBits v n)

/-- The RUN step's effect (41_datapath.md R82): one symbol read, its W low bits placed MSB first, IDX advanced. None where an
access is not admitted: the step is atomic and does not exist (20_memory.md R42). Entry 4. -/
def State.runStep (s : State) : Option State :=
  (s.portRead (s.inAddr + s.engine.idx)).bind fun r =>
    (State.putBits (maskSymbol s.width.toNat r.1) s.width.toNat r.2).map fun t =>
      { t with engine := { t.engine with idx := t.engine.idx + 1#32 } }

/-- The flush of the last byte when it is partly filled (41_datapath.md R84, R85). -/
def State.flush (s : State) : Option State :=
  if s.engine.bitpos = 7#3 then some s
  else (s.portWrite (s.outAddr + s.engine.oidx) s.engine.acc).map fun t =>
    { t with engine := { t.engine with oidx := t.engine.oidx + 1#32 } }

/-- The output range is any value at completion: the host wrote a range during the operation, or the ranges overlap
(20_memory.md R56 (b), R57). Entry 9. -/
def State.outputOpen (s : State) : Bool := s.intruded || s.overlaps

/-- The success completion (41_datapath.md R84): RESULT is OIDX, BUSY = 0, DONE = 1, ERR = 0; the engine's registers are free
values (entry 7), and so is the output range where it is open (entry 9). -/
def State.complete (s : State) : State :=
  { s with
    status := Status.success
    result := s.engine.oidx
    engine := freeEngine s.draws
    mem := if s.outputOpen then s.mem.scramble s.draws s.outAddr s.req else s.mem
    draws := s.draws + 1 }

/-- The FINISH step's effect (41_datapath.md R84). None where its write is not admitted (20_memory.md R42). -/
def State.finishStep (s : State) : Option State := s.flush.map State.complete

/-- The engine's enabled step in this phase (10_state.md R37); none where it has no step: idle, stuck (20_memory.md R42), or
no phase. -/
def State.engineStep (s : State) : Option State :=
  match s.phase with
  | some .run => s.runStep
  | some .finish => s.finishStep
  | some .idle => none
  | none => none

/-- The engine's turn: its enabled step, and no change where it has none. Entries 1 and 4. -/
def State.engineTurn (s : State) : State := s.engineStep.getD s

end Sys2Proof.Machine
end

