-- ==== Sys2Proof/Machine/HostMemory.lean ====
section
/-! DEFINITION. The host's own path to system memory (20_memory.md R41, R56; 30_encoding.md R69 `MEMR` and `MEMW`). -/

namespace Sys2Proof.Machine

/-- The host reads one byte of system memory. In the output range while BUSY = 1 it gets a free value, one per read
(20_memory.md R56 (a), 93_implementation_defined.md I4); elsewhere and otherwise, the byte. Entry 10. -/
def State.hostMemRead (s : State) (a : Word) : State :=
  if s.status.busy && s.inOutput a then
    { s with mdata := Config.freeByte s.draws a, draws := s.draws + 1 }
  else { s with mdata := s.byteAt a }

/-- The host writes one byte of system memory. In the input or output range while BUSY = 1 it breaks the operation's ownership
(20_memory.md R56 (b)). Entry 10. -/
def State.hostMemWrite (s : State) (a : Word) (v : Byte) : State :=
  { s.setByte a v with intruded := s.intruded || (s.status.busy && (s.inInput a || s.inOutput a)) }

end Sys2Proof.Machine
end

