-- ==== Sys2Proof/Decode.lean ====
section
/-! DEFINITION. The command decoder and encoder (30_encoding.md R64 to R66), the register number of an offset (R63), and the
opcode table's match and mask pairs (R65). -/

namespace Sys2Proof

/-- Why a command word is none of the three commands (30_encoding.md R66). -/
inductive Reject where
  /-- Some bit of MBZ, bits 31:4, is set. -/
  | mbzSet
  /-- MBZ is zero and OP is 3 to 15. -/
  | reservedOp
  deriving DecidableEq, Repr

/-- OP, bits 3:0 of a command word (30_encoding.md R64). -/
def opField (w : Word) : BitVec 4 := w.extractLsb' 0 4

/-- MBZ, bits 31:4 of a command word (30_encoding.md R64). -/
def mbzField (w : Word) : BitVec 28 := w.extractLsb' 4 28

/-- 30_encoding.md R65: total on 32-bit words, rejecting the reserved words of R66 by name. -/
def decode (w : Word) : Except Reject Instr :=
  if mbzField w ≠ 0#28 then .error .mbzSet
  else if opField w = 0x0#4 then .ok .nop
  else if opField w = 0x1#4 then .ok .pack
  else if opField w = 0x2#4 then .ok .clear
  else .error .reservedOp

/-- OP of each command (30_encoding.md R65, first column). -/
def Instr.op : Instr → BitVec 4
  | .nop => 0x0#4
  | .pack => 0x1#4
  | .clear => 0x2#4

/-- The command word {MBZ, OP} with MBZ = 0 (30_encoding.md R64). -/
def encode (i : Instr) : Word := 0#28 ++ i.op

/-- The decoder on an opcode-table word: a command is one 32-bit word (30_encoding.md R68), whose bits above `nbits` are 0. -/
def decodeTableWord (nbits w : Nat) : Option Instr :=
  match decode (BitVec.ofNat 32 (w % 2 ^ nbits)) with
  | .ok i => some i
  | .error _ => none

/-- One row of the opcode table as a match and mask pair (30_encoding.md R65). -/
structure OpcodeRow where
  instr : Instr
  matchBits : Word
  mask : Word
  deriving DecidableEq, Repr

/-- The rows of spec/opcode_table.json. -/
def opcodeTable : List OpcodeRow :=
  [ ⟨.nop, 0x00000000#32, 0xFFFFFFFF#32⟩,
    ⟨.pack, 0x00000001#32, 0xFFFFFFFF#32⟩,
    ⟨.clear, 0x00000002#32, 0xFFFFFFFF#32⟩ ]

/-- A word matches a row when its bits under the mask are the row's. -/
def OpcodeRow.covers (r : OpcodeRow) (w : Word) : Bool := w &&& r.mask == r.matchBits

/-- The register that offset[5:2] selects (30_encoding.md R63). -/
def Reg.ofOffset (offset : BitVec 6) : Reg :=
  match (offset.extractLsb' 2 4).toNat with
  | 0 => .cmd
  | 1 => .status
  | 2 => .irqEn
  | 3 => .width
  | 4 => .inAddr
  | 5 => .inCount
  | 6 => .outAddr
  | 7 => .outCap
  | 8 => .result
  | 9 => .id
  | 10 => .reserved 0
  | 11 => .reserved 1
  | 12 => .reserved 2
  | 13 => .reserved 3
  | 14 => .reserved 4
  | _ => .reserved 5

/-- The offset of each register (10_state.md R20, R38). -/
def Reg.offset : Reg → BitVec 6
  | .cmd => 0x00#6
  | .status => 0x04#6
  | .irqEn => 0x08#6
  | .width => 0x0C#6
  | .inAddr => 0x10#6
  | .inCount => 0x14#6
  | .outAddr => 0x18#6
  | .outCap => 0x1C#6
  | .result => 0x20#6
  | .id => 0x24#6
  | .reserved k => 0x28#6 + 4#6 * BitVec.ofNat 6 k.val

end Sys2Proof
end

