-- ==== Sys2Proof/Machine/Commands.lean ====
section
/-! DEFINITION. The meanings of the commands: NOP (42_control.md R93), PACK (40_pack.md R70 to R75) and CLEAR (42_control.md
R94, R95). -/

namespace Sys2Proof.Machine

/-- NOP: no effect, in every phase (42_control.md R93). -/
def execNop (s : State) : Host.Outcome State Fault Refusal := .next s

/-- PACK (40_pack.md R70): ignored while BUSY (R75); otherwise it clears the earlier completion, checks the width first and
the capacity next (60_exceptions.md R112), and accepts (R74). An operation that targets the block's own window is refused
(20_memory.md R52, entry 5). -/
def execPack (s : State) : Host.Outcome State Fault Refusal :=
  if s.status.busy then .next s
  else if !s.widthLegal then .next (s.acknowledge.raiseError .invalidWidth)
  else if !s.capacityEnough then .next (s.acknowledge.raiseError .bufferTooSmall)
  else if s.selfTargets then .refused .selfTargeting
  else .next s.acknowledge.accept

/-- CLEAR (42_control.md R94): ignored while BUSY (R95); otherwise DONE, ERR and RESULT become 0. -/
def execClear (s : State) : Host.Outcome State Fault Refusal :=
  if s.status.busy then .next s else .next s.acknowledge

end Sys2Proof.Machine
end

