-- ==== Sys2Proof/Machine/RegisterAccess.lean ====
section
/-! DEFINITION. Register access (43_register_access.md): the reads (R98), one write per register (R99 to R106), the command
performed by a CMD write (R105, 30_encoding.md R65, R66), and the whole transaction (R63, R96, R97). -/

namespace Sys2Proof.Machine

/-- The word a read returns (43_register_access.md R98). -/
def State.readReg (s : State) : Reg → Word
  | .cmd => 0#32
  | .status => s.status.word
  | .irqEn => s.irqEnWord
  | .width => s.width
  | .inAddr => s.inAddr
  | .inCount => s.inCount
  | .outAddr => s.outAddr
  | .outCap => s.outCap
  | .result => s.result
  | .id => Config.idValue
  | .reserved _ => 0#32

/-- A BUSY-locked write: dropped while BUSY = 1 (10_state.md R20, 70_reset_and_hazards.md R134). -/
def State.unlessBusy (s : State) (t : State) : State := if s.status.busy then s else t

/-- Write WIDTH (43_register_access.md R99): all 32 bits are stored. -/
def State.writeWidth (s : State) (d : Word) : State := s.unlessBusy { s with width := d }

/-- Write IN_ADDR (43_register_access.md R100). -/
def State.writeInAddr (s : State) (d : Word) : State := s.unlessBusy { s with inAddr := d }

/-- Write IN_COUNT (43_register_access.md R101). -/
def State.writeInCount (s : State) (d : Word) : State := s.unlessBusy { s with inCount := d }

/-- Write OUT_ADDR (43_register_access.md R102). -/
def State.writeOutAddr (s : State) (d : Word) : State := s.unlessBusy { s with outAddr := d }

/-- Write OUT_CAP (43_register_access.md R103). -/
def State.writeOutCap (s : State) (d : Word) : State := s.unlessBusy { s with outCap := d }

/-- Write IRQ_EN (43_register_access.md R104): IE <- d[0] in every phase. -/
def State.writeIrqEn (s : State) (d : Word) : State := { s with ie := d.getLsbD 0 }

/-- Write CMD (43_register_access.md R105): the decoded command, or nothing for a reserved word (30_encoding.md R66; exact for
revision 1, entry 14). -/
def performCommand (d : Word) (s : State) : Host.Outcome State Fault Refusal :=
  match decode d with
  | .ok i => exec i s
  | .error _ => .next s

/-- The write of each register (43_register_access.md R99 to R106). -/
def writeReg (r : Reg) (d : Word) (s : State) : Host.Outcome State Fault Refusal :=
  match r with
  | .cmd => performCommand d s
  | .irqEn => .next (s.writeIrqEn d)
  | .width => .next (s.writeWidth d)
  | .inAddr => .next (s.writeInAddr d)
  | .inCount => .next (s.writeInCount d)
  | .outAddr => .next (s.writeOutAddr d)
  | .outCap => .next (s.writeOutCap d)
  | .status => .next s
  | .result => .next s
  | .id => .next s
  | .reserved _ => .next s

/-- A read, with its word where the host finds it (30_encoding.md R63 rdata). Entry 12. -/
def State.readAccess (s : State) (offset : BitVec 6) : State :=
  { s with rdata := s.readReg (Reg.ofOffset offset) }

/-- One register transaction, one atomic HOST step (43_register_access.md R97); refused where it is not admitted at the port
(R96). -/
def hostAccess (a : Access) (s : State) : Host.Outcome State Fault Refusal :=
  if admitsAccess a then
    match a with
    | .read offset _ => .next (s.readAccess offset)
    | .write offset _ d => writeReg (Reg.ofOffset offset) d s
  else .refused .accessNotAdmitted

end Sys2Proof.Machine
end

