-- ==== Sys2Proof/Machine/Reset.lean ====
section
/-! DEFINITION. The RESET step (70_reset_and_hazards.md R130). -/

namespace Sys2Proof.Machine

/-- RESET (70_reset_and_hazards.md R130): every host-visible register becomes 0; the engine's registers are free values (entry
7). Memory is not reset, but an operation in progress leaves each byte of its output range any value (entry 9). The
platform, the turns to come and what the host has read are not the block's, and stay. -/
def State.resetStep (s : State) : State :=
  { s with
    width := 0#32
    inAddr := 0#32
    inCount := 0#32
    outAddr := 0#32
    outCap := 0#32
    status := Status.idle
    result := 0#32
    ie := false
    engine := freeEngine s.draws
    mem := if s.status.busy then s.mem.scramble s.draws s.outAddr s.req else s.mem
    intruded := false
    draws := s.draws + 1 }

end Sys2Proof.Machine
end

