-- ==== Sys2Proof/Machine/Turn.lean ====
section
/-! DEFINITION. One turn of one agent (00_scope.md R13). -/

namespace Sys2Proof.Machine

/-- One read of a POLL loop (30_encoding.md R69): when the masked word is not the wanted value, the loop goes on, after a turn
of the engine, which is the fairness that ends it (41_datapath.md R91). Entry 18. -/
def pollTurn (offset : BitVec 6) (mask value : Word) (s : State) : Host.Outcome State Fault Refusal :=
  match hostAccess (.read offset .word) s with
  | .next t =>
    if t.rdata &&& mask = value then .next t
    else .next { t with pending := .engine :: .poll offset mask value :: t.pending }
  | .fault r => .fault r
  | .refused r => .refused r

/-- The step that a turn stands for (00_scope.md R13). -/
def perform (e : Event) (s : State) : Host.Outcome State Fault Refusal :=
  match e with
  | .access a => hostAccess a s
  | .poll offset mask value => pollTurn offset mask value s
  | .memRead a => .next (s.hostMemRead a)
  | .memWrite a v => .next (s.hostMemWrite a v)
  | .engine => .next s.engineTurn
  | .reset => .next s.resetStep

/-- The next turn: the first pending one, or the engine's when none is pending (weak fairness, 41_datapath.md R91,
70_reset_and_hazards.md R142). Entry 1. -/
def nextTurn (s : State) : Host.Outcome State Fault Refusal :=
  match s.pending with
  | [] => .next s.engineTurn
  | e :: rest => perform e { s with pending := rest }

/-- The turn that writes command word `d` to CMD (43_register_access.md R105). -/
def commandEvent (d : Word) : Event := .access (.write (Reg.offset .cmd) .word d)

/-- The state in which the host's next turn is `e`. -/
def State.queueFirst (s : State) (e : Event) : State := { s with pending := e :: s.pending }

end Sys2Proof.Machine
end

