-- ==== Sys2Proof/Machine/Step.lean ====
section
/-! DEFINITION. One step of the machine, and the placing of a command word where the next step takes it from. -/

namespace Sys2Proof.Machine

/-- One step: one turn of one agent (00_scope.md R13). -/
def step (s : State) : Host.Outcome State Fault Refusal := nextTurn s

/-- The BSP fetches no instructions (20_memory.md R61): a command comes as a CMD write, so the word is placed as the host's
next turn, a write of it to CMD. The bits above `nbits` are 0. Entry 2. -/
def State.withFetchWord (s : State) (nbits w : Nat) : State :=
  s.queueFirst (commandEvent (BitVec.ofNat 32 (w % 2 ^ nbits)))

end Sys2Proof.Machine
end

