-- ==== Sys2Proof/Machine/HostScript.lean ====
section
/-! DEFINITION. The host notation of 30_encoding.md R69 as lists of turns, with the pseudo-instructions and their expansions.
A host program is data for the field `pending`; it is no state of the block (10_state.md R40). -/

namespace Sys2Proof.Machine

/-- `WR <REG>, <imm32>` (30_encoding.md R69). -/
def hostWR (r : Reg) (d : Word) : List Event := [.access (.write r.offset .word d)]

/-- `RD <REG>` (30_encoding.md R69). -/
def hostRD (r : Reg) : List Event := [.access (.read r.offset .word)]

/-- `POLL <REG>, <mask>, <value>` (30_encoding.md R69). -/
def hostPOLL (r : Reg) (mask value : Word) : List Event := [.poll r.offset mask value]

/-- `MEMW <addr>, [b0, b1, ...]` (30_encoding.md R69). Past 0xFFFF_FFFF the range goes on at 0, which R69 leaves open and R48
says of engine addresses only: DESIGN CHOICE, entry 25. -/
def hostMEMW (a : Word) : List Byte → List Event
  | [] => []
  | b :: bs => .memWrite a b :: hostMEMW (a + 1#32) bs

/-- `MEMR <addr>, <n>` (30_encoding.md R69): each byte in turn is in `mdata`. Past 0xFFFF_FFFF as `hostMEMW`: DESIGN CHOICE,
entry 25. -/
def hostMEMR (a : Word) : Nat → List Event
  | 0 => []
  | n + 1 => .memRead a :: hostMEMR (a + 1#32) n

/-- `NOP` (30_encoding.md R69). -/
def hostNOP : List Event := hostWR .cmd (encode .nop)

/-- `PACK` (30_encoding.md R69). -/
def hostPACK : List Event := hostWR .cmd (encode .pack)

/-- `CLEAR` (30_encoding.md R69). -/
def hostCLEAR : List Event := hostWR .cmd (encode .clear)

/-- `WAIT_DONE` (30_encoding.md R69). -/
def hostWaitDone : List Event := hostPOLL .status 0x2#32 0x2#32

/-- `WAIT_IDLE` (30_encoding.md R69). -/
def hostWaitIdle : List Event := hostPOLL .status 0x1#32 0x0#32

/-- `SETUP w, ia, n, oa, c` (30_encoding.md R69). -/
def hostSETUP (w ia n oa c : Word) : List Event :=
  hostWR .width w ++ hostWR .inAddr ia ++ hostWR .inCount n ++ hostWR .outAddr oa ++ hostWR .outCap c

end Sys2Proof.Machine
end

