-- ==== Sys2Proof/Safety.lean ====
section
/-! DEFINITION. What counts as a safe run, in the terms claims use: the output function of an operation (41_datapath.md R86),
the invariants of 10_state.md R39 and 41_datapath.md R90, the master port's record (20_memory.md R43, R44), what the
platform must provide (R42), and which agent has the next turn. -/

namespace Sys2Proof.Machine

/-! ### The output function (41_datapath.md R86) -/

/-- v_j, the selected bits of symbol `j` (41_datapath.md R86). -/
def State.symbol (s : State) (j : Nat) : Byte := maskSymbol s.width.toNat (s.byteAt (s.inputAddr j))

/-- Stream bit `p`: S(p) = v_{p div W}[W - 1 - (p mod W)] (41_datapath.md R86). -/
def State.streamBit (s : State) (p : Nat) : Bool :=
  (s.symbol (p / s.width.toNat)).getLsbD (s.width.toNat - 1 - p % s.width.toNat)

/-- Bit `p` of the output: the stream bit, and 0 past the last one (41_datapath.md R86, R85). -/
def State.outputBit (s : State) (p : Nat) : Bool :=
  decide (p < s.inCount.toNat * s.width.toNat) && s.streamBit p

/-- Output byte `k` of the operation that `s` describes stands in the memory of `t`, MSB first (41_datapath.md R86,
20_memory.md R45). -/
abbrev State.holdsOutputByte (s t : State) (k : Nat) : Prop :=
  ∀ q < 8, (t.byteAt (s.outputAddr k)).getLsbD (7 - q) = s.outputBit (8 * k + q)

/-! ### What the platform must provide -/

/-- Every access of the operation is admitted (20_memory.md R42, 41_datapath.md R91). -/
abbrev State.AllAdmitted (s : State) : Prop :=
  (∀ j < s.inCount.toNat, portAdmits s.platform (s.inputAddr j) .read = true) ∧
    ∀ k < s.req, portAdmits s.platform (s.outputAddr k) .write = true

/-- Some address of the input or output range lies in the block's own window, to which the platform routes the master port
(20_memory.md R52). -/
def State.TargetsWindow (s : State) : Prop :=
  s.platform.selfRouted = true ∧
    ∃ a, inRange s.platform.base Config.regWindow a = true ∧ (s.inInput a = true ∨ s.inOutput a = true)

/-! ### Invariants -/

/-- 10_state.md R39 (a) to (d), with 70_reset_and_hazards.md R137: RESULT is not 0 only after a success. -/
abbrev State.StatusInv (s : State) : Prop :=
  (s.status.busy = true → s.status.done = false ∧ s.status.err = none ∧ s.result = 0#32) ∧
    (s.status.err ≠ none → s.status.done = true ∧ s.result = 0#32) ∧
    (s.status.busy = true → 1 ≤ s.width.toNat ∧ s.width.toNat ≤ 8 ∧ s.req ≤ s.outCap.toNat) ∧
    (s.result ≠ 0#32 → s.status.done = true ∧ s.status.err = none)

/-- 41_datapath.md R90 (a), (b), (c), (f). -/
abbrev State.EngineInv (s : State) : Prop :=
  s.status.busy = true →
    s.engine.idx.toNat ≤ s.inCount.toNat ∧
      8 * s.engine.oidx.toNat + (7 - s.engine.bitpos.toNat) = s.engine.idx.toNat * s.width.toNat ∧
      (∀ j < s.engine.bitpos.toNat + 1, s.engine.acc.getLsbD j = false) ∧
      s.engine.oidx.toNat ≤ s.req ∧
      (s.engine.bitpos ≠ 7#3 → s.engine.oidx.toNat < s.req)

/-- 41_datapath.md R90 (d) and (e), while the host keeps to the ownership of 20_memory.md R56 and the ranges do not overlap
(R57): the bits placed so far and the bytes written so far are the output function's. -/
abbrev State.PackedInv (s : State) : Prop :=
  s.status.busy = true → s.outputOpen = false →
    (∀ q < 7 - s.engine.bitpos.toNat,
        s.engine.acc.getLsbD (7 - q) = s.streamBit (8 * s.engine.oidx.toNat + q)) ∧
      ∀ k < s.engine.oidx.toNat, s.holdsOutputByte s k

/-- The addresses read at the master port, in order. -/
def portReads (l : List PortAccess) : List Word :=
  l.filterMap fun
    | .read a => some a
    | .write _ _ => none

/-- The addresses written at the master port, in order. -/
def portWrites (l : List PortAccess) : List Word :=
  l.filterMap fun
    | .read _ => none
    | .write a _ => some a

/-- 20_memory.md R43 and R44, during an operation: the accesses so far are the reads of the first IDX symbols and the writes
of the first OIDX output bytes, each once and in order. -/
abbrev State.PortInv (s : State) : Prop :=
  s.status.busy = true →
    portReads s.portLog = (List.range s.engine.idx.toNat).map s.inputAddr ∧
      portWrites s.portLog = (List.range s.engine.oidx.toNat).map s.outputAddr

/-- 20_memory.md R52: an operation in progress names no address of the block's own window. -/
def State.WindowInv (s : State) : Prop := s.status.busy = true → ¬s.TargetsWindow

/-- System memory is in its canonical form. -/
abbrev State.MemInv (s : State) : Prop := s.mem.wf = true

/-- All the invariants together. -/
structure State.Inv (s : State) : Prop where
  status : s.StatusInv
  engine : s.EngineInv
  packed : s.PackedInv
  port : s.PortInv
  window : s.WindowInv
  mem : s.MemInv

/-! ### Turns -/

/-- Whose turn the next step is, and what it does (entry 1). -/
def State.turn (s : State) : Event :=
  match s.pending with
  | [] => .engine
  | e :: _ => e

/-- The turn is a CMD write that decodes to command `i` (43_register_access.md R105). -/
def Event.commands (e : Event) (i : Instr) : Prop :=
  ∃ d, e = .access (.write 0x00#6 .word d) ∧ decode d = .ok i

/-- `n` steps of the machine, stopping at the first refusal: `Host.Core.run` of this machine, at this machine's own types
(`runSteps_eq_run` in Laws/Step.lean). -/
def runSteps : Nat → State → Host.Outcome State Fault Refusal
  | 0, s => .next s
  | n + 1, s =>
    match step s with
    | .next t => runSteps n t
    | .fault r => .fault r
    | .refused r => .refused r

end Sys2Proof.Machine
end

