-- ==== Sys2Proof/Certificates/Slice0/Obligations.lean ====
section
/-! DEFINITION. The statements for the provers, from the numbered rules of spec/. A HOST step is stated of `hostAccess`, an
ENGINE step of `State.engineStep` (none where the engine has no step), a RESET step of `perform .reset`, and a whole step of
`step`, whose turn is `State.turn` (the model's own schedule, entry 1). -/

open Sys2Proof Sys2Proof.Machine

/-! ### Encoding -/

/-- 30_encoding.md R65: the decoder is total, NOP, PACK and CLEAR are the words 0, 1 and 2, each matching its value under the
mask 0xFFFF_FFFF, and every other word is reserved. -/
def Obligations.DecoderFollowsTheCommandTable : Prop :=
  ∀ w : Word,
    (decode w = .ok .nop ↔ w = 0x00000000#32) ∧
      (decode w = .ok .pack ↔ w = 0x00000001#32) ∧
      (decode w = .ok .clear ↔ w = 0x00000002#32) ∧
      ((∃ r, decode w = .error r) ↔ w ≠ 0x00000000#32 ∧ w ≠ 0x00000001#32 ∧ w ≠ 0x00000002#32) ∧
      ∀ i, (decode w = .ok i ↔ ∃ r ∈ opcodeTable, r.instr = i ∧ r.mask = 0xFFFFFFFF#32 ∧ w &&& r.mask = r.matchBits)

/-- 30_encoding.md R64, R65, R68: decoding and encoding agree in both directions, so each word has one meaning and each
command one word. -/
def Obligations.DecodeAndEncodeAgree : Prop :=
  ∀ (w : Word) (i : Instr), (decode w = .ok i ↔ w = encode i) ∧ decode (encode i) = .ok i

/-- Words of spec/opcode_table.json, and of 95_test_vectors.md T5 to T7, through the opcode-table decoder. -/
def Obligations.SampleCommandWordsDecode : Prop :=
  decodeTableWord 32 0x0 = some .nop ∧ decodeTableWord 32 0x1 = some .pack ∧ decodeTableWord 32 0x2 = some .clear ∧
    decodeTableWord 32 0x3 = none ∧ decodeTableWord 32 0x11 = none ∧ decodeTableWord 32 0xFFFFFFFF = none

/-- 30_encoding.md R63: offset[5:2] is the number of the register selected, 0 to 9 by name and 10 to 15 reserved; the port's
aligned offsets and the registers of 10_state.md R20 correspond one to one. -/
def Obligations.OffsetsSelectRegisters : Prop :=
  (∀ o : BitVec 6,
      (o.extractLsb' 2 4 = 0#4 → Reg.ofOffset o = .cmd) ∧ (o.extractLsb' 2 4 = 1#4 → Reg.ofOffset o = .status) ∧
        (o.extractLsb' 2 4 = 2#4 → Reg.ofOffset o = .irqEn) ∧ (o.extractLsb' 2 4 = 3#4 → Reg.ofOffset o = .width) ∧
        (o.extractLsb' 2 4 = 4#4 → Reg.ofOffset o = .inAddr) ∧ (o.extractLsb' 2 4 = 5#4 → Reg.ofOffset o = .inCount) ∧
        (o.extractLsb' 2 4 = 6#4 → Reg.ofOffset o = .outAddr) ∧ (o.extractLsb' 2 4 = 7#4 → Reg.ofOffset o = .outCap) ∧
        (o.extractLsb' 2 4 = 8#4 → Reg.ofOffset o = .result) ∧ (o.extractLsb' 2 4 = 9#4 → Reg.ofOffset o = .id) ∧
        (10 ≤ (o.extractLsb' 2 4).toNat → ∃ k, Reg.ofOffset o = .reserved k)) ∧
    (∀ r : Reg, Reg.ofOffset r.offset = r) ∧ ∀ o : BitVec 6, o.toNat % 4 = 0 → (Reg.ofOffset o).offset = o

/-! ### Steps and turns (the model's schedule, entries 1 and 2) -/

/-- Entry 1, DESIGN CHOICE: a step takes the first pending turn off the queue, or gives the engine its turn when none is
pending; a turn of the engine is its enabled step, and nothing where it has none. -/
def Obligations.StepTakesTheNextTurn : Prop :=
  ∀ s : State,
    (s.pending = [] → step s = .next (s.engineStep.getD s)) ∧
      ∀ e rest, s.pending = e :: rest →
        (∀ a, e = .access a → step s = hostAccess a { s with pending := rest }) ∧
          (e = .engine →
            step s = .next ((State.engineStep { s with pending := rest }).getD { s with pending := rest })) ∧
          (e = .reset → step s = perform .reset { s with pending := rest }) ∧
          (∀ a, e = .memRead a → step s = perform (.memRead a) { s with pending := rest }) ∧
          ∀ a v, e = .memWrite a v → step s = perform (.memWrite a v) { s with pending := rest }

/-- A step runs the decoded command: when the next turn is a write to CMD of a word that decodes to `i`, the step is `exec i`
at the state with that turn taken off; and a word placed by `withFetchWord` is run so. Entries 1 and 2, DESIGN CHOICE. -/
def Obligations.StepRunsTheDecodedCommand : Prop :=
  (∀ (s : State) (d : Word) (rest : List Event) (i : Instr),
      s.pending = .access (.write 0x00#6 .word d) :: rest → decode d = .ok i →
        step s = exec i { s with pending := rest }) ∧
    ∀ (s : State) (i : Instr), step (s.withFetchWord 32 (encode i).toNat) = exec i s

/-- 43_register_access.md R105: the word written to CMD is decoded and the same HOST step performs the command; a reserved
word has no effect; CMD stores nothing. -/
def Obligations.CmdWritePerformsTheCommand : Prop :=
  ∀ (s : State) (d : Word),
    (∀ i, decode d = .ok i → hostAccess (.write 0x00#6 .word d) s = exec i s) ∧
      ((∃ r, decode d = .error r) → hostAccess (.write 0x00#6 .word d) s = .next s) ∧
      hostAccess (.read 0x00#6 .word) s = .next { s with rdata := 0x00000000#32 }

/-- 30_encoding.md R66: a word with OP in 3 to 15, or with any MBZ bit set, is ignored: no effect on any state. -/
def Obligations.ReservedCommandWordIsIgnored : Prop :=
  ∀ (s : State) (d : Word),
    (3 ≤ (d.extractLsb' 0 4).toNat ∨ d.extractLsb' 4 28 ≠ 0#28) → hostAccess (.write 0x00#6 .word d) s = .next s

/-! ### NOP and CLEAR -/

/-- 42_control.md R93: NOP, the CMD write of 0x0000_0000, has no effect, in every phase. -/
def Obligations.NopHasNoEffect : Prop :=
  ∀ s : State, exec .nop s = .next s ∧ hostAccess (.write 0x00#6 .word 0x00000000#32) s = .next s

/-- 42_control.md R94, R95: CLEAR is the CMD write of 0x0000_0002; while BUSY = 1 it has no effect; otherwise DONE, ERR and
RESULT become 0, irq falls, and nothing else changes. -/
def Obligations.ClearAcknowledgesACompletion : Prop :=
  ∀ s : State,
    hostAccess (.write 0x00#6 .word 0x00000002#32) s = exec .clear s ∧
      (s.status.busy = true → exec .clear s = .next s) ∧
      (s.status.busy = false →
        ∃ t, exec .clear s = .next t ∧
          t = { s with status := { busy := false, done := false, err := none }, result := 0#32 } ∧ t.irq = false)

/-! ### PACK -/

/-- 40_pack.md R75: PACK while BUSY = 1, and the CMD write of 0x0000_0001 that is PACK, has no effect. -/
def Obligations.PackWhileBusyHasNoEffect : Prop :=
  ∀ s : State, s.status.busy = true →
    exec .pack s = .next s ∧ hostAccess (.write 0x00#6 .word 0x00000001#32) s = .next s

/-- 40_pack.md R71, 60_exceptions.md R112: the width check passes exactly when the full 32-bit WIDTH is 1 to 8; every other
value raises InvalidWidth, whatever IN_COUNT and OUT_CAP hold. -/
def Obligations.PackRaisesInvalidWidthExactly : Prop :=
  ∀ s : State, s.status.busy = false →
    (¬(1 ≤ s.width.toNat ∧ s.width.toNat ≤ 8) →
        exec .pack s =
          .next { s with status := { busy := false, done := true, err := some .invalidWidth }, result := 0#32 }) ∧
      (1 ≤ s.width.toNat ∧ s.width.toNat ≤ 8 → ∀ t, exec .pack s = .next t → t.status.err ≠ some .invalidWidth)

/-- 60_exceptions.md R111: an error completes inside the PACK step: ERR is the kind's code, DONE = 1, RESULT = 0, BUSY stays
0, irq is IE, and no other register, no engine register and no byte of memory changes. -/
def Obligations.PackErrorCompletesInItsStep : Prop :=
  ∀ (s : State) (e : ErrorKind), s.status.busy = false →
    (e = .invalidWidth ∧ ¬(1 ≤ s.width.toNat ∧ s.width.toNat ≤ 8) ∨
        e = .bufferTooSmall ∧ (1 ≤ s.width.toNat ∧ s.width.toNat ≤ 8) ∧
          s.outCap.toNat < (s.inCount.toNat * s.width.toNat + 7) / 8) →
      ∃ t, exec .pack s = .next t ∧
        t = { s with status := { busy := false, done := true, err := some e }, result := 0#32 } ∧
        (e = .invalidWidth → t.status.word = 0x00000006#32) ∧
        (e = .bufferTooSmall → t.status.word = 0x0000000A#32) ∧
        t.irq = s.ie

/-- 40_pack.md R74: when both checks pass, the same step initialises the engine and sets BUSY, with DONE = 0, ERR = 0 and
RESULT = 0, touches no memory, and from then on the RUN or FINISH step is enabled. An operation that targets the block's own
window (20_memory.md R52) is not meant here: `PackThatTargetsTheWindowIsRefused`. -/
def Obligations.PackAcceptsAnOperation : Prop :=
  ∀ s : State, s.status.busy = false → 1 ≤ s.width.toNat ∧ s.width.toNat ≤ 8 →
    (s.inCount.toNat * s.width.toNat + 7) / 8 ≤ s.outCap.toNat → ¬s.TargetsWindow →
      ∃ t, exec .pack s = .next t ∧
        t = { s with
          status := { busy := true, done := false, err := none }
          result := 0#32
          engine := { acc := 0x00#8, bitpos := 7#3, idx := 0#32, oidx := 0#32 }
          portLog := t.portLog
          intruded := t.intruded } ∧
        t.phase = if s.inCount = 0#32 then some .finish else some .run

/-- 20_memory.md R52, 93_implementation_defined.md I8: an operation whose input or output range holds an address that the
platform routes to the block's own window is refused. That it is refused in the PACK step is DEDUCED, entry 5. -/
def Obligations.PackThatTargetsTheWindowIsRefused : Prop :=
  ∀ s : State, s.status.busy = false → 1 ≤ s.width.toNat ∧ s.width.toNat ≤ 8 →
    (s.inCount.toNat * s.width.toNat + 7) / 8 ≤ s.outCap.toNat →
      (exec .pack s = .refused .selfTargeting ↔ s.TargetsWindow)

/-- Every command answers a next state in every state and phase, but for the operation of R52. -/
def Obligations.EveryCommandCompletes : Prop :=
  ∀ (i : Instr) (s : State), (i = .pack → ¬s.TargetsWindow) → ∃ t, exec i s = .next t

/-- The frame of NOP, PACK and CLEAR (40_pack.md R70, 42_control.md R93, R94, 60_exceptions.md R111): the operand registers,
IRQ_EN, every byte of memory, the platform, the turns to come and what the host has read stay; only PACK may change the
engine's registers and the port's record, and only when it accepts: then the port's record and the ownership mark, the
model's own (entries 10 and 13), start afresh. -/
def Obligations.CommandsLeaveTheRestUnchanged : Prop :=
  ∀ (i : Instr) (s t : State), exec i s = .next t →
    (t.width = s.width ∧ t.inAddr = s.inAddr ∧ t.inCount = s.inCount ∧ t.outAddr = s.outAddr ∧ t.outCap = s.outCap) ∧
      (t.ie = s.ie ∧ t.platform = s.platform ∧ t.pending = s.pending ∧ t.rdata = s.rdata ∧ t.mdata = s.mdata ∧
        t.draws = s.draws) ∧
      (∀ a, t.byteAt a = s.byteAt a) ∧
      (i ≠ .pack ∨ t.status.busy = false ∨ s.status.busy = true →
        t.engine = s.engine ∧ t.portLog = s.portLog ∧ t.intruded = s.intruded) ∧
      (s.status.busy = false → t.status.busy = true → t.portLog = [] ∧ t.intruded = false)

/-- 40_pack.md R72: REQ is exactly (N * W + 7) div 8; for W <= 8 the product is below 2^35, REQ is at most N, and REQ fits in
32 bits. -/
def Obligations.RequiredSizeIsExact : Prop :=
  ∀ s : State,
    s.req = (s.inCount.toNat * s.width.toNat + 7) / 8 ∧
      (s.width.toNat ≤ 8 →
        s.inCount.toNat * s.width.toNat < 2 ^ 35 ∧ s.req ≤ s.inCount.toNat ∧ s.req < 2 ^ 32)

/-! ### Register access -/

/-- 43_register_access.md R98: a register read returns the register's word, in every phase, and changes nothing else; while
BUSY = 1 (of the states of 10_state.md R39) RESULT reads 0; the engine's registers cannot be read. -/
def Obligations.RegisterReadReturnsItsWord : Prop :=
  ∀ (s : State) (o : BitVec 6), o.toNat % 4 = 0 →
    ∃ v, (∀ e : Engine, hostAccess (.read o .word) { s with engine := e } = .next { s with engine := e, rdata := v }) ∧
      hostAccess (.read o .word) s = .next { s with rdata := v } ∧
      (o = 0x00#6 → v = 0x00000000#32) ∧
      (o = 0x04#6 → v = 0#28 ++ errCode s.status.err ++ BitVec.ofBool s.status.done ++ BitVec.ofBool s.status.busy) ∧
      (o = 0x08#6 → v = 0#31 ++ BitVec.ofBool s.ie) ∧
      (o = 0x0C#6 → v = s.width) ∧
      (o = 0x10#6 → v = s.inAddr) ∧
      (o = 0x14#6 → v = s.inCount) ∧
      (o = 0x18#6 → v = s.outAddr) ∧
      (o = 0x1C#6 → v = s.outCap) ∧
      (o = 0x20#6 → v = s.result ∧ (s.StatusInv → s.status.busy = true → v = 0x00000000#32)) ∧
      (o = 0x24#6 → v = 0x42535001#32) ∧
      (0x28 ≤ o.toNat → v = 0x00000000#32)

/-- 10_state.md R26, R28: BUSY is bit 0 of STATUS, DONE bit 1, ERR bits 3:2 with codes 0 NONE, 1 InvalidWidth and 2
BufferTooSmall and never 3, and bits 31:4 read 0. -/
def Obligations.StatusWordLayout : Prop :=
  ∀ t : Status,
    t.word.getLsbD 0 = t.busy ∧ t.word.getLsbD 1 = t.done ∧ t.word.extractLsb' 4 28 = 0#28 ∧
      (t.err = none → t.word.extractLsb' 2 2 = 0#2) ∧
      (t.err = some .invalidWidth → t.word.extractLsb' 2 2 = 1#2) ∧
      (t.err = some .bufferTooSmall → t.word.extractLsb' 2 2 = 2#2) ∧
      t.word.extractLsb' 2 2 ≠ 3#2

/-- 43_register_access.md R99 to R103: a write to WIDTH, IN_ADDR, IN_COUNT, OUT_ADDR or OUT_CAP stores all 32 bits while
BUSY = 0 and is dropped while BUSY = 1; nothing else changes. -/
def Obligations.OperandWritesStoreUnlessBusy : Prop :=
  ∀ (s : State) (d : Word),
    (s.status.busy = false →
        hostAccess (.write 0x0C#6 .word d) s = .next { s with width := d } ∧
          hostAccess (.write 0x10#6 .word d) s = .next { s with inAddr := d } ∧
          hostAccess (.write 0x14#6 .word d) s = .next { s with inCount := d } ∧
          hostAccess (.write 0x18#6 .word d) s = .next { s with outAddr := d } ∧
          hostAccess (.write 0x1C#6 .word d) s = .next { s with outCap := d }) ∧
      (s.status.busy = true →
        ∀ o ∈ [0x0C#6, 0x10#6, 0x14#6, 0x18#6, 0x1C#6], hostAccess (.write o .word d) s = .next s)

/-- 43_register_access.md R104: a write to IRQ_EN sets IE to d[0] in every phase and changes nothing else, and irq follows at
once; IRQ_EN then reads back d[0]. -/
def Obligations.IrqEnableWriteTakesBitZero : Prop :=
  ∀ (s : State) (d : Word),
    ∃ t, hostAccess (.write 0x08#6 .word d) s = .next t ∧ t = { s with ie := d.getLsbD 0 } ∧
      t.irq = (s.status.done && d.getLsbD 0) ∧
      hostAccess (.read 0x08#6 .word) t = .next { t with rdata := 0#31 ++ BitVec.ofBool (d.getLsbD 0) }

/-- 43_register_access.md R106: a write to STATUS, RESULT, ID or a reserved offset has no effect in every phase. -/
def Obligations.ReadOnlyAndReservedWritesAreIgnored : Prop :=
  ∀ (s : State) (o : BitVec 6) (d : Word), o.toNat % 4 = 0 →
    (o = 0x04#6 ∨ o = 0x20#6 ∨ o = 0x24#6 ∨ 0x28 ≤ o.toNat) → hostAccess (.write o .word d) s = .next s

/-- 43_register_access.md R96: the port accepts exactly the 32-bit accesses whose offset has offset[1:0] = 00; the model
refuses every other. -/
def Obligations.UnadmittedAccessIsRefused : Prop :=
  ∀ (s : State) (o : BitVec 6) (size : AccessSize) (d : Word),
    (hostAccess (.read o size) s = .refused .accessNotAdmitted ↔ ¬(size = .word ∧ o.toNat % 4 = 0)) ∧
      (hostAccess (.write o size d) s = .refused .accessNotAdmitted ↔ ¬(size = .word ∧ o.toNat % 4 = 0))

/-- 30_encoding.md R69 POLL: one read of the register; the loop ends when the masked word is the wanted value, and goes on
otherwise. That a turn of the engine comes first is the model's choice, entry 18. -/
def Obligations.PollReadsUntilTheValueAppears : Prop :=
  ∀ (s : State) (r : Reg) (mask value : Word) (rest : List Event), s.pending = .poll r.offset mask value :: rest →
    step s = .next { s with
      rdata := s.readReg r
      pending := if s.readReg r &&& mask = value then rest else .engine :: .poll r.offset mask value :: rest }

/-! ### The engine -/

/-- 41_datapath.md R80: v = s & ((1 << W) - 1), the low W bits; with W = 8 it is the symbol. -/
def Obligations.SymbolKeepsItsLowBits : Prop :=
  ∀ (w : Nat) (sym : Byte),
    (maskSymbol w sym).toNat = sym.toNat &&& (1 <<< w - 1) ∧
      (∀ i, (maskSymbol w sym).getLsbD i = (decide (i < w) && sym.getLsbD i)) ∧ maskSymbol 8 sym = sym

/-- 41_datapath.md R81: PutBit sets bit BITPOS of ACC (the same as ACC | (b << BITPOS) where the bits from BITPOS down are
0). When that was bit 0, it writes the full byte (where the platform admits it) and moves the cursor to the MSB of the next
byte with ACC = 0; otherwise it moves the cursor down by one. -/
def Obligations.PutBitPlacesOneBit : Prop :=
  ∀ (s : State) (b : Bool),
    ∃ acc : Byte,
      (∀ j < 8, acc.getLsbD j = if j = s.engine.bitpos.toNat then b else s.engine.acc.getLsbD j) ∧
        ((∀ j < s.engine.bitpos.toNat + 1, s.engine.acc.getLsbD j = false) →
          acc.toNat = s.engine.acc.toNat ||| b.toNat <<< s.engine.bitpos.toNat) ∧
        (s.engine.bitpos = 0#3 → portAdmits s.platform (s.outAddr + s.engine.oidx) .write = true →
          ∃ l, s.putBit b = some { s with
            mem := s.mem.write (s.outAddr + s.engine.oidx).toNat acc
            portLog := l
            engine := { acc := 0x00#8, bitpos := 7#3, idx := s.engine.idx, oidx := s.engine.oidx + 1#32 } }) ∧
        (s.engine.bitpos ≠ 0#3 →
          s.putBit b = some { s with engine := { s.engine with acc := acc, bitpos := s.engine.bitpos - 1#3 } })

/-- 41_datapath.md R82 in the closed form of R83: with f = 7 - BITPOS, t = f + W and X = (ACC << 8) | (v << (16 - t)), the
RUN step writes X[15:8] and keeps X[7:0] when t >= 8, and keeps X[15:8] otherwise; it reads one symbol and advances IDX. The
premise on ACC is 41_datapath.md R90 (c). -/
def Obligations.RunStepHasTheClosedForm : Prop :=
  ∀ s : State, s.status.busy = true → s.engine.idx.toNat < s.inCount.toNat → 1 ≤ s.width.toNat → s.width.toNat ≤ 8 →
    (∀ j < s.engine.bitpos.toNat + 1, s.engine.acc.getLsbD j = false) →
    portAdmits s.platform (s.inAddr + s.engine.idx) .read = true →
    (8 ≤ 7 - s.engine.bitpos.toNat + s.width.toNat → portAdmits s.platform (s.outAddr + s.engine.oidx) .write = true) →
      let v := (s.byteAt (s.inAddr + s.engine.idx)).toNat % 2 ^ s.width.toNat
      let t := 7 - s.engine.bitpos.toNat + s.width.toNat
      let X := s.engine.acc.toNat <<< 8 ||| v <<< (16 - t)
      s.engineStep =
        if 8 ≤ t then
          some { s with
            mem := s.mem.write (s.outAddr + s.engine.oidx).toNat (BitVec.ofNat 8 (X / 256))
            portLog := s.portLog ++ [.read (s.inAddr + s.engine.idx),
              .write (s.outAddr + s.engine.oidx) (BitVec.ofNat 8 (X / 256))]
            engine := { acc := BitVec.ofNat 8 (X % 256), bitpos := BitVec.ofNat 3 (15 - t)
                        idx := s.engine.idx + 1#32, oidx := s.engine.oidx + 1#32 } }
        else
          some { s with
            portLog := s.portLog ++ [.read (s.inAddr + s.engine.idx)]
            engine := { acc := BitVec.ofNat 8 (X / 256), bitpos := BitVec.ofNat 3 (7 - t)
                        idx := s.engine.idx + 1#32, oidx := s.engine.oidx } }

/-- 20_memory.md R42: an access that is not admitted has no step, so the engine's turn changes nothing and BUSY
stays. That a RUN or FINISH step with one such access has no effect at all is DEDUCED from its atomicity, entry 4. -/
def Obligations.EngineIsStuckWhereNotAdmitted : Prop :=
  ∀ s : State, s.status.busy = true →
    (s.engine.idx.toNat < s.inCount.toNat ∧ portAdmits s.platform (s.inAddr + s.engine.idx) .read = false ∨
        s.engine.idx.toNat < s.inCount.toNat ∧ s.engine.bitpos.toNat < s.width.toNat ∧
          portAdmits s.platform (s.outAddr + s.engine.oidx) .write = false ∨
        s.engine.idx = s.inCount ∧ s.engine.bitpos ≠ 7#3 ∧
          portAdmits s.platform (s.outAddr + s.engine.oidx) .write = false) →
      s.engineStep = none ∧ perform .engine s = .next s

/-- 41_datapath.md R84: FINISH writes ACC when the last byte is partly filled, RESULT is OIDX, BUSY = 0, DONE = 1, ERR = 0, and
irq is IE; no other host-visible register changes. In every state of the invariants RESULT is REQ. While the output is not
open (20_memory.md R56, R57), no other byte of memory changes. What the output range then holds is
`FinishLeavesTheOutputFunction`. -/
def Obligations.FinishStepCompletes : Prop :=
  ∀ s : State, s.status.busy = true → s.engine.idx = s.inCount → s.MemInv →
    (s.engine.bitpos ≠ 7#3 → portAdmits s.platform (s.outAddr + s.engine.oidx) .write = true) →
      ∃ t, s.engineStep = some t ∧
        t.status = { busy := false, done := true, err := none } ∧
        t.result = (if s.engine.bitpos ≠ 7#3 then s.engine.oidx + 1#32 else s.engine.oidx) ∧
        (s.Inv → t.result.toNat = s.req) ∧
        t.irq = s.ie ∧
        (t.width = s.width ∧ t.inAddr = s.inAddr ∧ t.inCount = s.inCount ∧ t.outAddr = s.outAddr ∧ t.outCap = s.outCap ∧
          t.ie = s.ie) ∧
        (s.intruded = false → (∀ a, ¬(s.inInput a = true ∧ s.inOutput a = true)) →
          ∀ a, t.byteAt a =
            if s.engine.bitpos ≠ 7#3 ∧ a = s.outAddr + s.engine.oidx then s.engine.acc else s.byteAt a)

/-- 10_state.md R37: the phase is IDLE when BUSY = 0, RUN when IDX < IN_COUNT and FINISH when IDX = IN_COUNT; of the states
of 41_datapath.md R90 each is in exactly one. In IDLE the engine has no step, and with no turn pending nothing happens. -/
def Obligations.PhaseFollowsTheStatus : Prop :=
  ∀ s : State,
    (s.phase = some .idle ↔ s.status.busy = false) ∧
      (s.phase = some .run ↔ s.status.busy = true ∧ s.engine.idx.toNat < s.inCount.toNat) ∧
      (s.phase = some .finish ↔ s.status.busy = true ∧ s.engine.idx = s.inCount) ∧
      (s.EngineInv → s.phase ≠ none) ∧
      (s.phase = some .idle → s.engineStep = none ∧ (s.pending = [] → step s = .next s))

/-! ### Invariants that every step keeps -/

/-- 10_state.md R39: the status invariants. -/
def Obligations.StepKeepsStatusInvariant : Prop :=
  ∀ s t : State, s.StatusInv → step s = .next t → t.StatusInv

/-- 41_datapath.md R90 (a), (b), (c), (f): the cursor invariants. -/
def Obligations.StepKeepsEngineInvariant : Prop :=
  ∀ s t : State, s.StatusInv → s.EngineInv → step s = .next t → t.EngineInv

/-- 41_datapath.md R90 (d), (e): the bits placed and the bytes written so far are the output function's, as long as the
ownership of 20_memory.md R56 holds and the ranges do not overlap. -/
def Obligations.StepKeepsPackedInvariant : Prop :=
  ∀ s t : State, s.Inv → step s = .next t → t.PackedInv

/-- 20_memory.md R43, R44, R49: the master port has read the first IDX symbols and written the first OIDX output bytes, each
once and in order. The record is the model's own, entry 13. -/
def Obligations.StepKeepsPortInvariant : Prop :=
  ∀ s t : State, s.Inv → step s = .next t → t.PortInv

/-- 20_memory.md R52: no operation in progress names an address of the block's own window. -/
def Obligations.StepKeepsWindowInvariant : Prop :=
  ∀ s t : State, s.WindowInv → step s = .next t → t.WindowInv

/-- System memory keeps its canonical form. -/
def Obligations.StepKeepsMemoryCanonical : Prop :=
  ∀ s t : State, s.MemInv → step s = .next t → t.MemInv

/-- The invariants hold right after reset, whatever the platform, the memory (in its canonical form) and the turns to come.
-/
def Obligations.ResetMeetsEveryInvariant : Prop :=
  ∀ (p : Config.Platform) (m : Memory) (l : List Event), m.wf = true →
    State.Inv { State.reset with platform := p, mem := m, pending := l }

/-- 00_scope.md R8: BASE and Admit are fixed; no step writes them. -/
def Obligations.StepKeepsThePlatform : Prop :=
  ∀ s t : State, step s = .next t → t.platform = s.platform

/-! ### Rules of the whole machine -/

/-- 10_state.md R26: BUSY is set only by a PACK, and cleared only by FINISH and by reset. -/
def Obligations.BusyChangesOnlyAtItsSteps : Prop :=
  ∀ s t : State, step s = .next t →
    (s.status.busy = false → t.status.busy = true → s.turn.commands .pack) ∧
      (s.status.busy = true → t.status.busy = false →
        s.turn = .reset ∨ s.turn = .engine ∧ s.phase = some .finish)

/-- 10_state.md R27, R28, R29, 60_exceptions.md R110: DONE is set only by FINISH and by a PACK's error completion, an error is
reported only by PACK, and RESULT gets a count only at FINISH. DONE is cleared only by PACK, CLEAR and reset, the commands
while BUSY = 0; ERR goes back to NONE, and RESULT changes, only at these and at FINISH. -/
def Obligations.DoneChangesOnlyAtItsSteps : Prop :=
  ∀ s t : State, step s = .next t →
    (s.status.done = false → t.status.done = true →
        s.turn.commands .pack ∧ t.status.err ≠ none ∨ s.turn = .engine ∧ s.phase = some .finish ∧ t.status.err = none) ∧
      (t.status.err ≠ s.status.err → t.status.err ≠ none → s.turn.commands .pack) ∧
      (s.status.done = true → t.status.done = false →
        s.turn = .reset ∨ s.status.busy = false ∧ (s.turn.commands .pack ∨ s.turn.commands .clear)) ∧
      (s.status.err ≠ none → t.status.err = none →
        s.turn = .reset ∨ s.turn = .engine ∧ s.phase = some .finish ∨
          s.status.busy = false ∧ (s.turn.commands .pack ∨ s.turn.commands .clear)) ∧
      (t.result ≠ s.result → t.result ≠ 0#32 → s.turn = .engine ∧ s.phase = some .finish) ∧
      (t.result ≠ s.result →
        s.turn = .reset ∨ s.turn = .engine ∧ s.phase = some .finish ∨
          s.status.busy = false ∧ (s.turn.commands .pack ∨ s.turn.commands .clear))

/-- 60_exceptions.md R117, R118: irq rises only when DONE or IE rises, by a completion or an IRQ_EN write, and falls only at
an IRQ_EN write, CLEAR, a PACK that is not ignored, or reset. -/
def Obligations.IrqChangesOnlyAtItsCauses : Prop :=
  ∀ s t : State, step s = .next t →
    (s.irq = false → t.irq = true →
        s.turn.commands .pack ∨ s.turn = .engine ∧ s.phase = some .finish ∨
          ∃ d : Word, s.turn = .access (.write 0x08#6 .word d) ∧ d.getLsbD 0 = true) ∧
      (s.irq = true → t.irq = false →
        s.turn = .reset ∨ s.status.busy = false ∧ (s.turn.commands .pack ∨ s.turn.commands .clear) ∨
          ∃ d : Word, s.turn = .access (.write 0x08#6 .word d) ∧ d.getLsbD 0 = false)

/-- 30_encoding.md R67, 41_datapath.md R91, 70_reset_and_hazards.md R134, R135: while BUSY = 1, no turn of the host changes
the operands, the status or the engine, so none disables an engine step. -/
def Obligations.HostCannotDisturbAnOperation : Prop :=
  ∀ s t : State, s.status.busy = true → s.turn ≠ .engine → s.turn ≠ .reset → step s = .next t →
    t.width = s.width ∧ t.inAddr = s.inAddr ∧ t.inCount = s.inCount ∧ t.outAddr = s.outAddr ∧ t.outCap = s.outCap ∧
      t.status = s.status ∧ t.result = s.result ∧ t.engine = s.engine ∧ t.phase = s.phase

/-- 20_memory.md R44, 00_scope.md R6: apart from a host memory write at that address, no step changes a byte outside the
output range of an operation in progress, and none changes any byte while BUSY = 0. -/
def Obligations.NothingWritesOutsideTheOutputRange : Prop :=
  ∀ (s t : State) (a : Word), s.Inv → step s = .next t → (∀ v, s.turn ≠ .memWrite a v) →
    (s.status.busy = false ∨ s.inOutput a = false) → t.byteAt a = s.byteAt a

/-- 41_datapath.md R92: the input data never changes the sequence of steps: with any other memory the engine takes the same
step to the same status and count, with accesses at the same addresses, and in RUN to the same cursor. After FINISH the cursor
is unspecified (10_state.md R34, free values, entry 7), and nothing is said of it. -/
def Obligations.SequenceDoesNotDependOnData : Prop :=
  ∀ (s t : State) (m : Memory), s.engineStep = some t →
    ∃ u, State.engineStep { s with mem := m } = some u ∧
      u.status = t.status ∧ u.result = t.result ∧
      (s.phase = some .run →
        u.engine.idx = t.engine.idx ∧ u.engine.oidx = t.engine.oidx ∧ u.engine.bitpos = t.engine.bitpos) ∧
      portReads u.portLog = portReads t.portLog ∧ portWrites u.portLog = portWrites t.portLog

/-- 20_memory.md R44, 41_datapath.md R85: the engine's step depends on memory only through the symbol that RUN reads, and FINISH
on none of it: with any other memory (in RUN, one that holds the same symbol there) it makes the same accesses with the same
bytes and leaves the same host-visible registers, and in RUN the same engine registers. After FINISH those are unspecified
(10_state.md R34, free values, entry 7), and nothing is said of them. -/
def Obligations.EngineDependsOnlyOnItsSymbol : Prop :=
  ∀ (s t : State) (m : Memory), s.engineStep = some t →
    (s.phase = some .run →
        State.byteAt { s with mem := m } (s.inAddr + s.engine.idx) = s.byteAt (s.inAddr + s.engine.idx)) →
      ∃ u, State.engineStep { s with mem := m } = some u ∧ u = { t with mem := u.mem, engine := u.engine } ∧
        (s.phase = some .run → u.engine = t.engine)

/-! ### Host memory and reset -/

/-- 20_memory.md R56 (a): a host read of the output range while BUSY = 1 returns any value, a free value in the model (entry
10); every other host read returns the byte. Nothing else changes but the count of draws. -/
def Obligations.HostMemoryReadReturnsTheByteOrAny : Prop :=
  ∀ (s : State) (a : Word),
    (s.status.busy = true ∧ s.inOutput a = true →
        perform (.memRead a) s = .next { s with mdata := Config.freeByte s.draws a, draws := s.draws + 1 }) ∧
      (¬(s.status.busy = true ∧ s.inOutput a = true) → perform (.memRead a) s = .next { s with mdata := s.byteAt a })

/-- 20_memory.md R41, R56 (b): a host write stores its byte and no other; in the input or output range while BUSY = 1 it
breaks the operation's ownership. That the byte lands at once is the model's choice, entry 10. -/
def Obligations.HostMemoryWriteStoresItsByte : Prop :=
  ∀ (s : State) (a : Word) (v : Byte), s.MemInv →
    ∃ t, perform (.memWrite a v) s = .next t ∧
      (∀ b, t.byteAt b = if b = a then v else s.byteAt b) ∧
      t = { s with mem := t.mem, intruded := t.intruded } ∧
      (t.intruded = true ↔
        s.intruded = true ∨ s.status.busy = true ∧ (s.inInput a = true ∨ s.inOutput a = true))

/-- 70_reset_and_hazards.md R130: RESET clears every host-visible register, lowers irq, and leaves the engine without a
step. The premise on WIDTH is 10_state.md R39 (d). Memory is not reset, but each byte of the output range of an operation in
progress is any value, a free value in the model (entry 9). ID keeps its constant. -/
def Obligations.ResetStepClearsTheBlock : Prop :=
  ∀ s : State, s.MemInv → (s.status.busy = true → s.width.toNat ≤ 8) →
    ∃ t, perform .reset s = .next t ∧
      (t.width = 0#32 ∧ t.inAddr = 0#32 ∧ t.inCount = 0#32 ∧ t.outAddr = 0#32 ∧ t.outCap = 0#32) ∧
      (t.status.word = 0#32 ∧ t.result = 0#32 ∧ t.irqEnWord = 0#32 ∧ t.irq = false ∧ t.readReg .id = 0x42535001#32) ∧
      t.phase = some .idle ∧ t.engineStep = none ∧
      (∀ a, s.status.busy = false ∨ s.inOutput a = false → t.byteAt a = s.byteAt a) ∧
      ∀ a, s.status.busy = true → s.inOutput a = true → t.byteAt a = Config.freeByte s.draws a

/-- 70_reset_and_hazards.md R132: a PACK straight after reset raises InvalidWidth: STATUS reads 0x6 and RESULT 0. -/
def Obligations.PackStraightAfterResetFails : Prop :=
  ∀ (s : State) (rest : List Event), s.pending = .reset :: .access (.write 0x00#6 .word 0x00000001#32) :: rest →
    ∃ t, runSteps 2 s = .next t ∧ t.status.word = 0x00000006#32 ∧ t.result = 0#32

/-! ### Whole operations -/

/-- 41_datapath.md R86, R87, R91: a PACK that is accepted, with every access admitted, no address shared by the ranges and no
other turn in between, completes after N RUN steps and one FINISH step with RESULT = REQ; the output range holds the output
function of the input, MSB first and zero padded, and every other byte of memory is unchanged. -/
def Obligations.OperationPacksTheStream : Prop :=
  ∀ s : State, s.status.busy = false → s.pending = [.access (.write 0x00#6 .word 0x00000001#32)] → s.MemInv →
    1 ≤ s.width.toNat → s.width.toNat ≤ 8 → s.req ≤ s.outCap.toNat → s.AllAdmitted → ¬s.TargetsWindow →
    (∀ a, ¬(s.inInput a = true ∧ s.inOutput a = true)) →
      ∃ t, runSteps (s.inCount.toNat + 2) s = .next t ∧
        t.status = { busy := false, done := true, err := none } ∧ t.result.toNat = s.req ∧
        (∀ k < s.req, ∀ q < 8, (t.byteAt (s.outAddr + BitVec.ofNat 32 k)).getLsbD (7 - q) =
          (decide (8 * k + q < s.inCount.toNat * s.width.toNat) &&
            (s.byteAt (s.inAddr + BitVec.ofNat 32 ((8 * k + q) / s.width.toNat))).getLsbD
              (s.width.toNat - 1 - (8 * k + q) % s.width.toNat))) ∧
        ∀ a, s.inOutput a = false → t.byteAt a = s.byteAt a

/-- 95_test_vectors.md section 1.1 and P4: unpacking the output with the same W and N gives back the low W bits of every
symbol, in order. Unpack is the test oracle of that section, not a command of the block. -/
def Obligations.UnpackingRecoversTheSymbols : Prop :=
  ∀ s : State, s.status.busy = false → s.pending = [.access (.write 0x00#6 .word 0x00000001#32)] → s.MemInv →
    1 ≤ s.width.toNat → s.width.toNat ≤ 8 → s.req ≤ s.outCap.toNat → s.AllAdmitted → ¬s.TargetsWindow →
    (∀ a, ¬(s.inInput a = true ∧ s.inOutput a = true)) →
      ∃ t, runSteps (s.inCount.toNat + 2) s = .next t ∧
        ∀ j < s.inCount.toNat,
          ((List.range s.width.toNat).map fun i =>
              ((t.byteAt (s.outAddr + BitVec.ofNat 32 ((j * s.width.toNat + i) / 8))).getLsbD
                (7 - (j * s.width.toNat + i) % 8)).toNat <<< (s.width.toNat - 1 - i)).sum =
            (s.byteAt (s.inAddr + BitVec.ofNat 32 j)).toNat % 2 ^ s.width.toNat

/-- 41_datapath.md R88: with W = 8 output byte k is input byte k and RESULT = N. -/
def Obligations.WidthEightCopiesTheInput : Prop :=
  ∀ s : State, s.status.busy = false → s.pending = [.access (.write 0x00#6 .word 0x00000001#32)] → s.MemInv →
    s.width = 8#32 → s.inCount.toNat ≤ s.outCap.toNat → s.AllAdmitted → ¬s.TargetsWindow →
    (∀ a, ¬(s.inInput a = true ∧ s.inOutput a = true)) →
      ∃ t, runSteps (s.inCount.toNat + 2) s = .next t ∧ t.result = s.inCount ∧
        ∀ k < s.inCount.toNat, t.byteAt (s.outAddr + BitVec.ofNat 32 k) = s.byteAt (s.inAddr + BitVec.ofNat 32 k)

/-- 41_datapath.md R89: with N = 0 and a legal W, PACK succeeds for any OUT_CAP, in one FINISH step, with RESULT = 0 and no
byte of memory changed. -/
def Obligations.EmptyInputSucceeds : Prop :=
  ∀ s : State, s.status.busy = false → s.pending = [.access (.write 0x00#6 .word 0x00000001#32)] →
    1 ≤ s.width.toNat → s.width.toNat ≤ 8 → s.inCount = 0#32 →
      ∃ t, runSteps 2 s = .next t ∧ t.status = { busy := false, done := true, err := none } ∧ t.result = 0#32 ∧
        ∀ a, t.byteAt a = s.byteAt a

/-- 41_datapath.md R91: an operation in progress, with every access admitted and no turn pending, is busy until its
remaining RUN steps are done, and completes at the next step, whatever its ranges and the host have done. -/
def Obligations.OperationCompletesOnTime : Prop :=
  ∀ s : State, s.Inv → s.status.busy = true → s.pending = [] → s.AllAdmitted →
    (∀ n ≤ s.inCount.toNat - s.engine.idx.toNat,
        ∃ u, runSteps n s = .next u ∧ u.status.busy = true ∧ u.engine.idx.toNat = s.engine.idx.toNat + n) ∧
      ∃ t, runSteps (s.inCount.toNat - s.engine.idx.toNat + 1) s = .next t ∧
        t.status = { busy := false, done := true, err := none } ∧ t.result.toNat = s.req

/-- 20_memory.md R57 (and R56 (b)): when the ranges share an address, or the host has written one of them, the bytes of the
output range are any value after completion, a free value in the model (entry 9); STATUS and RESULT still follow R84, and no
address outside the output range is written. -/
def Obligations.OverlapLeavesOnlyTheOutputOpen : Prop :=
  ∀ s : State, s.Inv → s.status.busy = true → s.pending = [] → s.AllAdmitted →
    ((∃ a, s.inInput a = true ∧ s.inOutput a = true) ∨ s.intruded = true) →
      ∃ t, runSteps (s.inCount.toNat - s.engine.idx.toNat + 1) s = .next t ∧
        t.status = { busy := false, done := true, err := none } ∧ t.result.toNat = s.req ∧
        (∀ a, s.inOutput a = false → t.byteAt a = s.byteAt a) ∧
        ∃ n, ∀ a, s.inOutput a = true → t.byteAt a = Config.freeByte n a

/-- 20_memory.md R43: an accepted operation reads each byte (IN_ADDR + j) mod 2^32, j < N, exactly once and in order, and
reads no other address; one that ends in an error completion reads nothing. Likewise each output byte k < REQ is written
exactly once (R44). The record of the port is the model's own, entry 13. -/
def Obligations.EachByteIsAccessedExactlyOnce : Prop :=
  (∀ s t : State, s.Inv → s.phase = some .finish → s.engineStep = some t →
      portReads t.portLog = (List.range s.inCount.toNat).map (fun j => s.inAddr + BitVec.ofNat 32 j) ∧
        portWrites t.portLog = (List.range s.req).map (fun k => s.outAddr + BitVec.ofNat 32 k)) ∧
    ∀ s t : State, exec .pack s = .next t → t.status.err ≠ none → t.portLog = s.portLog ∧ t.mem = s.mem

/-- 41_datapath.md R86, R87, under every schedule: from every state of the invariants, whatever turns led to it, FINISH leaves
RESULT = REQ and, while the output is not open (20_memory.md R56, R57), the output function of the input in the output range;
where it is open each byte of that range is any value, a free value in the model (entry 9). No byte outside it changes. -/
def Obligations.FinishLeavesTheOutputFunction : Prop :=
  ∀ s : State, s.Inv → s.phase = some .finish →
    (s.engine.bitpos ≠ 7#3 → portAdmits s.platform (s.outAddr + s.engine.oidx) .write = true) →
      ∃ t, s.engineStep = some t ∧
        t.status = { busy := false, done := true, err := none } ∧ t.result.toNat = s.req ∧
        (∀ a, s.inOutput a = false → t.byteAt a = s.byteAt a) ∧
        (s.intruded = false → (∀ a, ¬(s.inInput a = true ∧ s.inOutput a = true)) →
          ∀ k < s.req, s.holdsOutputByte t k ∧ t.holdsOutputByte t k) ∧
        (s.intruded = true ∨ (∃ a, s.inInput a = true ∧ s.inOutput a = true) →
          ∀ a, s.inOutput a = true → t.byteAt a = Config.freeByte s.draws a)
end

