-- ==== Sys2Proof/Laws/Memory.lean ====
section
/-! SUPPORT. The laws of system memory and of address ranges: a read after a write, the canonical form, and what `scramble`
does. Later proofs cite these and do not unfold `Memory.write`. -/

namespace Sys2Proof.Machine

theorem Memory.read_nil (a : Nat) : Memory.read [] a = Memory.unlisted := rfl

theorem Memory.read_cons (b : Nat) (v : Byte) (m : Memory) (a : Nat) :
    Memory.read ((b, v) :: m) a = if b = a then v else m.read a := rfl

/-- A read below every listed key finds nothing listed. -/
theorem Memory.read_below (m : Memory) (a : Nat) (h : ∀ c ∈ m, a < c.1) : m.read a = Memory.unlisted := by
  induction m with
  | nil => rfl
  | cons c m ih =>
    obtain ⟨b, v⟩ := c
    have hb : a < b := h (b, v) (by simp)
    rw [Memory.read_cons, if_neg (by omega)]
    exact ih fun c hc => h c (List.mem_cons_of_mem _ hc)

theorem Memory.wf_cons {b : Nat} {v : Byte} {m : Memory} :
    Memory.wf ((b, v) :: m) = true ↔
      b < 2 ^ 32 ∧ v ≠ Memory.unlisted ∧ (∀ c ∈ m, b < c.1) ∧ m.wf = true := by
  simp only [Memory.wf, Bool.and_eq_true, decide_eq_true_eq, bne_iff_ne, List.all_eq_true, and_assoc]

/-- Every key of memory after a write is the key written or an earlier one. -/
theorem Memory.mem_write {m : Memory} {a : Nat} {v : Byte} {c : Host.Cell} (h : c ∈ m.write a v) :
    c.1 = a ∨ c ∈ m := by
  induction m with
  | nil => simp only [Memory.write] at h; split at h <;> simp_all
  | cons d m ih =>
    obtain ⟨b, w⟩ := d
    simp only [Memory.write] at h
    split at h
    · split at h
      · exact .inr h
      · rcases List.mem_cons.1 h with rfl | h
        · exact .inl rfl
        · exact .inr h
    · split at h
      · split at h
        · exact .inr (List.mem_cons_of_mem _ h)
        · rcases List.mem_cons.1 h with rfl | h
          · exact .inl rfl
          · exact .inr (List.mem_cons_of_mem _ h)
      · rcases List.mem_cons.1 h with rfl | h
        · exact .inr List.mem_cons_self
        · exact (ih h).imp_right (List.mem_cons_of_mem _)

/-- A write keeps the canonical form. -/
theorem Memory.wf_write {m : Memory} {a : Nat} {v : Byte} (ha : a < 2 ^ 32) (h : m.wf = true) :
    (m.write a v).wf = true := by
  induction m with
  | nil =>
    simp only [Memory.write]
    split
    · rfl
    · exact Memory.wf_cons.2 ⟨ha, ‹_›, by simp, rfl⟩
  | cons d m ih =>
    obtain ⟨b, w⟩ := d
    obtain ⟨hb, hw, hlt, hm⟩ := Memory.wf_cons.1 h
    simp only [Memory.write]
    split
    · split
      · exact h
      · refine Memory.wf_cons.2 ⟨ha, ‹_›, fun c hc => ?_, h⟩
        rcases List.mem_cons.1 hc with rfl | hc
        · assumption
        · exact lt_trans ‹a < b› (hlt c hc)
    · split
      · split
        · exact hm
        · subst ‹a = b›; exact Memory.wf_cons.2 ⟨ha, ‹_›, hlt, hm⟩
      · refine Memory.wf_cons.2 ⟨hb, hw, fun c hc => ?_, ih hm⟩
        rcases Memory.mem_write hc with hc | hc
        · omega
        · exact hlt c hc

/-- The byte read at each key after a write. -/
theorem Memory.read_write {m : Memory} (h : m.wf = true) (a : Nat) (v : Byte) (b : Nat) :
    (m.write a v).read b = if a = b then v else m.read b := by
  induction m with
  | nil =>
    simp only [Memory.write]
    by_cases hv : v = Memory.unlisted
    · simp [hv, Memory.read_nil]
    · simp [hv, Memory.read_cons, Memory.read_nil]
  | cons d m ih =>
    obtain ⟨c, w⟩ := d
    obtain ⟨-, -, hlt, hm⟩ := Memory.wf_cons.1 h
    simp only [Memory.write]
    split
    · rename_i hac
      by_cases hv : v = Memory.unlisted
      · simp only [hv, if_true]
        by_cases hab : a = b
        · subst hab
          rw [if_pos rfl]
          refine Memory.read_below _ _ fun e he => ?_
          rcases List.mem_cons.1 he with rfl | he
          · exact hac
          · exact lt_trans hac (hlt e he)
        · rw [if_neg hab]
      · simp only [hv, if_false, Memory.read_cons]
    · split
      · rename_i _ hac
        subst hac
        by_cases hv : v = Memory.unlisted
        · simp only [hv, if_true, Memory.read_cons]
          by_cases hab : a = b
          · subst hab
            rw [if_pos rfl]
            exact Memory.read_below _ _ hlt
          · rw [if_neg hab, if_neg hab]
        · simp only [hv, if_false, Memory.read_cons]
          by_cases hab : a = b <;> simp [hab]
      · rename_i _ hac
        rw [Memory.read_cons, Memory.read_cons, ih hm]
        by_cases hcb : c = b
        · subst hcb; rw [if_pos rfl, if_pos rfl, if_neg hac]
        · rw [if_neg hcb, if_neg hcb]

/-- Equal memories are equal data: canonical forms that read alike at every key are one list. -/
theorem Memory.ext_of_read {m n : Memory} (hm : m.wf = true) (hn : n.wf = true) (h : ∀ a, m.read a = n.read a) : m = n := by
  induction m generalizing n with
  | nil =>
    cases n with
    | nil => rfl
    | cons d n =>
      obtain ⟨b, w⟩ := d
      have := h b
      rw [Memory.read_nil, Memory.read_cons, if_pos rfl] at this
      exact absurd this.symm (Memory.wf_cons.1 hn).2.1
  | cons c m ih =>
    obtain ⟨a, v⟩ := c
    obtain ⟨-, hv, hlt, hm'⟩ := Memory.wf_cons.1 hm
    cases n with
    | nil =>
      have := h a
      rw [Memory.read_nil, Memory.read_cons, if_pos rfl] at this
      exact absurd this hv
    | cons d n =>
      obtain ⟨b, w⟩ := d
      obtain ⟨-, hw, hlt', hn'⟩ := Memory.wf_cons.1 hn
      have hab : a = b := by
        rcases lt_trichotomy a b with hab | hab | hab
        · have := h a
          rw [Memory.read_cons, if_pos rfl, Memory.read_below ((b, w) :: n) a] at this
          · exact absurd this hv
          · intro e he
            rcases List.mem_cons.1 he with rfl | he
            · exact hab
            · exact lt_trans hab (hlt' e he)
        · exact hab
        · have := h b
          rw [Memory.read_cons b w n, if_pos rfl, Memory.read_below ((a, v) :: m) b] at this
          · exact absurd this.symm hw
          · intro e he
            rcases List.mem_cons.1 he with rfl | he
            · exact hab
            · exact lt_trans hab (hlt e he)
      subst hab
      have hvw : v = w := by simpa [Memory.read_cons] using h a
      subst hvw
      congr 1
      refine ih hm' hn' fun x => ?_
      by_cases hx : a = x
      · subst hx
        rw [Memory.read_below m a hlt, Memory.read_below n a hlt']
      · simpa [Memory.read_cons, hx] using h x

/-! ### Address ranges -/

theorem inRange_iff {a x : Word} {n : Nat} : inRange a n x = true ↔ (x - a).toNat < n := by
  simp [inRange]

/-- An address is in a range of at most 2^32 addresses when it is the range's base plus a smaller number. -/
theorem inRange_iff_exists {a x : Word} {n : Nat} :
    inRange a n x = true ↔ ∃ j < n, j < 2 ^ 32 ∧ x = a + BitVec.ofNat 32 j := by
  rw [inRange_iff]
  constructor
  · intro h
    refine ⟨(x - a).toNat, h, (x - a).isLt, ?_⟩
    rw [BitVec.ofNat_toNat, BitVec.setWidth_eq]
    simp
  · rintro ⟨j, hj, hj', rfl⟩
    rw [BitVec.add_comm, BitVec.add_sub_cancel, BitVec.toNat_ofNat]
    omega

theorem inRange_offset {a : Word} {n j : Nat} (hj : j < n) (hj' : j < 2 ^ 32) :
    inRange a n (a + BitVec.ofNat 32 j) = true :=
  inRange_iff_exists.2 ⟨j, hj, hj', rfl⟩

/-- Two ranges share an address exactly when `rangesMeet` says so (20_memory.md R57). -/
theorem rangesMeet_iff {a b : Word} {n m : Nat} :
    rangesMeet a n b m = true ↔ ∃ x, inRange a n x = true ∧ inRange b m x = true := by
  simp only [rangesMeet, Bool.or_eq_true, Bool.and_eq_true, decide_eq_true_eq, inRange_iff]
  constructor
  · rintro (⟨hm, h⟩ | ⟨hn, h⟩)
    · exact ⟨b, h, by simpa using hm⟩
    · exact ⟨a, by simpa using hn, h⟩
  · rintro ⟨x, h₁, h₂⟩
    have := a.isLt; have := b.isLt; have := x.isLt
    simp only [BitVec.toNat_sub] at *
    omega

/-- Offsets below 2^32 name different addresses. -/
theorem offset_inj {a : Word} {i j : Nat} (hi : i < 2 ^ 32) (hj : j < 2 ^ 32)
    (h : a + BitVec.ofNat 32 i = a + BitVec.ofNat 32 j) : i = j := by
  have := congrArg BitVec.toNat ((BitVec.add_right_inj a).1 h)
  simp only [BitVec.toNat_ofNat] at this
  omega

/-! ### scramble -/

theorem Memory.wf_scramble {m : Memory} (h : m.wf = true) (d : Nat) (a : Word) (n : Nat) :
    (m.scramble d a n).wf = true := by
  induction n with
  | zero => exact h
  | succ n ih => exact Memory.wf_write (a + BitVec.ofNat 32 n).isLt ih

/-- `scramble` makes the bytes of its range free values and leaves every other byte. -/
theorem Memory.read_scramble {m : Memory} (h : m.wf = true) (d : Nat) (a : Word) (n : Nat) (hn : n ≤ 2 ^ 32) (x : Word) :
    (m.scramble d a n).read x.toNat =
      if inRange a n x = true then Config.freeByte d x else m.read x.toNat := by
  induction n with
  | zero => simp [Memory.scramble, inRange]
  | succ n ih =>
    have ih := ih (by omega)
    simp only [Memory.scramble]
    rw [Memory.read_write (Memory.wf_scramble h d a n), ih]
    by_cases hx : x = a + BitVec.ofNat 32 n
    · subst hx
      rw [if_pos rfl, if_pos (inRange_offset (by omega) (by omega))]
    · rw [if_neg fun e => hx (BitVec.eq_of_toNat_eq e.symm)]
      have : (inRange a (n + 1) x = true) ↔ (inRange a n x = true) := by
        rw [inRange_iff_exists, inRange_iff_exists]
        constructor
        · rintro ⟨j, hj, hj', rfl⟩
          rcases Nat.lt_succ_iff_lt_or_eq.1 hj with hj | rfl
          · exact ⟨j, hj, hj', rfl⟩
          · exact absurd rfl hx
        · rintro ⟨j, hj, hj', e⟩
          exact ⟨j, by omega, hj', e⟩
      simp only [this]

end Sys2Proof.Machine
end

