-- ==== Sys2Proof/Laws/State.lean ====
section
/-! SUPPORT. What each named update of the state does to each field, by computation, so that no later proof unfolds a record
update. -/

namespace Sys2Proof.Machine

/-! ### acknowledge (60_exceptions.md R115) -/

@[simp] theorem State.acknowledge_width (s : State) : s.acknowledge.width = s.width := rfl
@[simp] theorem State.acknowledge_inAddr (s : State) : s.acknowledge.inAddr = s.inAddr := rfl
@[simp] theorem State.acknowledge_inCount (s : State) : s.acknowledge.inCount = s.inCount := rfl
@[simp] theorem State.acknowledge_outAddr (s : State) : s.acknowledge.outAddr = s.outAddr := rfl
@[simp] theorem State.acknowledge_outCap (s : State) : s.acknowledge.outCap = s.outCap := rfl
@[simp] theorem State.acknowledge_status (s : State) : s.acknowledge.status = { s.status with done := false, err := none } := rfl
@[simp] theorem State.acknowledge_result (s : State) : s.acknowledge.result = 0 := rfl
@[simp] theorem State.acknowledge_ie (s : State) : s.acknowledge.ie = s.ie := rfl
@[simp] theorem State.acknowledge_engine (s : State) : s.acknowledge.engine = s.engine := rfl
@[simp] theorem State.acknowledge_mem (s : State) : s.acknowledge.mem = s.mem := rfl
@[simp] theorem State.acknowledge_platform (s : State) : s.acknowledge.platform = s.platform := rfl
@[simp] theorem State.acknowledge_pending (s : State) : s.acknowledge.pending = s.pending := rfl
@[simp] theorem State.acknowledge_rdata (s : State) : s.acknowledge.rdata = s.rdata := rfl
@[simp] theorem State.acknowledge_mdata (s : State) : s.acknowledge.mdata = s.mdata := rfl
@[simp] theorem State.acknowledge_portLog (s : State) : s.acknowledge.portLog = s.portLog := rfl
@[simp] theorem State.acknowledge_intruded (s : State) : s.acknowledge.intruded = s.intruded := rfl
@[simp] theorem State.acknowledge_draws (s : State) : s.acknowledge.draws = s.draws := rfl

/-! ### raiseError (60_exceptions.md R111) -/

@[simp] theorem State.raiseError_width (e : ErrorKind) (s : State) : (State.raiseError e s).width = s.width := rfl
@[simp] theorem State.raiseError_inAddr (e : ErrorKind) (s : State) : (State.raiseError e s).inAddr = s.inAddr := rfl
@[simp] theorem State.raiseError_inCount (e : ErrorKind) (s : State) : (State.raiseError e s).inCount = s.inCount := rfl
@[simp] theorem State.raiseError_outAddr (e : ErrorKind) (s : State) : (State.raiseError e s).outAddr = s.outAddr := rfl
@[simp] theorem State.raiseError_outCap (e : ErrorKind) (s : State) : (State.raiseError e s).outCap = s.outCap := rfl
@[simp] theorem State.raiseError_status (e : ErrorKind) (s : State) : (State.raiseError e s).status = { s.status with done := true, err := some e } := rfl
@[simp] theorem State.raiseError_result (e : ErrorKind) (s : State) : (State.raiseError e s).result = 0 := rfl
@[simp] theorem State.raiseError_ie (e : ErrorKind) (s : State) : (State.raiseError e s).ie = s.ie := rfl
@[simp] theorem State.raiseError_engine (e : ErrorKind) (s : State) : (State.raiseError e s).engine = s.engine := rfl
@[simp] theorem State.raiseError_mem (e : ErrorKind) (s : State) : (State.raiseError e s).mem = s.mem := rfl
@[simp] theorem State.raiseError_platform (e : ErrorKind) (s : State) : (State.raiseError e s).platform = s.platform := rfl
@[simp] theorem State.raiseError_pending (e : ErrorKind) (s : State) : (State.raiseError e s).pending = s.pending := rfl
@[simp] theorem State.raiseError_rdata (e : ErrorKind) (s : State) : (State.raiseError e s).rdata = s.rdata := rfl
@[simp] theorem State.raiseError_mdata (e : ErrorKind) (s : State) : (State.raiseError e s).mdata = s.mdata := rfl
@[simp] theorem State.raiseError_portLog (e : ErrorKind) (s : State) : (State.raiseError e s).portLog = s.portLog := rfl
@[simp] theorem State.raiseError_intruded (e : ErrorKind) (s : State) : (State.raiseError e s).intruded = s.intruded := rfl
@[simp] theorem State.raiseError_draws (e : ErrorKind) (s : State) : (State.raiseError e s).draws = s.draws := rfl

/-! ### accept (40_pack.md R74) -/

@[simp] theorem State.accept_width (s : State) : s.accept.width = s.width := rfl
@[simp] theorem State.accept_inAddr (s : State) : s.accept.inAddr = s.inAddr := rfl
@[simp] theorem State.accept_inCount (s : State) : s.accept.inCount = s.inCount := rfl
@[simp] theorem State.accept_outAddr (s : State) : s.accept.outAddr = s.outAddr := rfl
@[simp] theorem State.accept_outCap (s : State) : s.accept.outCap = s.outCap := rfl
@[simp] theorem State.accept_status (s : State) : s.accept.status = { s.status with busy := true } := rfl
@[simp] theorem State.accept_result (s : State) : s.accept.result = s.result := rfl
@[simp] theorem State.accept_ie (s : State) : s.accept.ie = s.ie := rfl
@[simp] theorem State.accept_engine (s : State) : s.accept.engine = { acc := 0x00#8, bitpos := 7#3, idx := 0#32, oidx := 0#32 } := rfl
@[simp] theorem State.accept_mem (s : State) : s.accept.mem = s.mem := rfl
@[simp] theorem State.accept_platform (s : State) : s.accept.platform = s.platform := rfl
@[simp] theorem State.accept_pending (s : State) : s.accept.pending = s.pending := rfl
@[simp] theorem State.accept_rdata (s : State) : s.accept.rdata = s.rdata := rfl
@[simp] theorem State.accept_mdata (s : State) : s.accept.mdata = s.mdata := rfl
@[simp] theorem State.accept_portLog (s : State) : s.accept.portLog = [] := rfl
@[simp] theorem State.accept_intruded (s : State) : s.accept.intruded = false := rfl
@[simp] theorem State.accept_draws (s : State) : s.accept.draws = s.draws := rfl

/-! ### setByte -/

@[simp] theorem State.setByte_width (s : State) (a : Word) (v : Byte) : (s.setByte a v).width = s.width := rfl
@[simp] theorem State.setByte_inAddr (s : State) (a : Word) (v : Byte) : (s.setByte a v).inAddr = s.inAddr := rfl
@[simp] theorem State.setByte_inCount (s : State) (a : Word) (v : Byte) : (s.setByte a v).inCount = s.inCount := rfl
@[simp] theorem State.setByte_outAddr (s : State) (a : Word) (v : Byte) : (s.setByte a v).outAddr = s.outAddr := rfl
@[simp] theorem State.setByte_outCap (s : State) (a : Word) (v : Byte) : (s.setByte a v).outCap = s.outCap := rfl
@[simp] theorem State.setByte_status (s : State) (a : Word) (v : Byte) : (s.setByte a v).status = s.status := rfl
@[simp] theorem State.setByte_result (s : State) (a : Word) (v : Byte) : (s.setByte a v).result = s.result := rfl
@[simp] theorem State.setByte_ie (s : State) (a : Word) (v : Byte) : (s.setByte a v).ie = s.ie := rfl
@[simp] theorem State.setByte_engine (s : State) (a : Word) (v : Byte) : (s.setByte a v).engine = s.engine := rfl
@[simp] theorem State.setByte_mem (s : State) (a : Word) (v : Byte) : (s.setByte a v).mem = s.mem.write a.toNat v := rfl
@[simp] theorem State.setByte_platform (s : State) (a : Word) (v : Byte) : (s.setByte a v).platform = s.platform := rfl
@[simp] theorem State.setByte_pending (s : State) (a : Word) (v : Byte) : (s.setByte a v).pending = s.pending := rfl
@[simp] theorem State.setByte_rdata (s : State) (a : Word) (v : Byte) : (s.setByte a v).rdata = s.rdata := rfl
@[simp] theorem State.setByte_mdata (s : State) (a : Word) (v : Byte) : (s.setByte a v).mdata = s.mdata := rfl
@[simp] theorem State.setByte_portLog (s : State) (a : Word) (v : Byte) : (s.setByte a v).portLog = s.portLog := rfl
@[simp] theorem State.setByte_intruded (s : State) (a : Word) (v : Byte) : (s.setByte a v).intruded = s.intruded := rfl
@[simp] theorem State.setByte_draws (s : State) (a : Word) (v : Byte) : (s.setByte a v).draws = s.draws := rfl

/-! ### complete (41_datapath.md R84) -/

@[simp] theorem State.complete_width (s : State) : s.complete.width = s.width := rfl
@[simp] theorem State.complete_inAddr (s : State) : s.complete.inAddr = s.inAddr := rfl
@[simp] theorem State.complete_inCount (s : State) : s.complete.inCount = s.inCount := rfl
@[simp] theorem State.complete_outAddr (s : State) : s.complete.outAddr = s.outAddr := rfl
@[simp] theorem State.complete_outCap (s : State) : s.complete.outCap = s.outCap := rfl
@[simp] theorem State.complete_status (s : State) : s.complete.status = Status.success := rfl
@[simp] theorem State.complete_result (s : State) : s.complete.result = s.engine.oidx := rfl
@[simp] theorem State.complete_ie (s : State) : s.complete.ie = s.ie := rfl
@[simp] theorem State.complete_engine (s : State) : s.complete.engine = freeEngine s.draws := rfl
@[simp] theorem State.complete_mem (s : State) : s.complete.mem = if s.outputOpen then s.mem.scramble s.draws s.outAddr s.req else s.mem := rfl
@[simp] theorem State.complete_platform (s : State) : s.complete.platform = s.platform := rfl
@[simp] theorem State.complete_pending (s : State) : s.complete.pending = s.pending := rfl
@[simp] theorem State.complete_rdata (s : State) : s.complete.rdata = s.rdata := rfl
@[simp] theorem State.complete_mdata (s : State) : s.complete.mdata = s.mdata := rfl
@[simp] theorem State.complete_portLog (s : State) : s.complete.portLog = s.portLog := rfl
@[simp] theorem State.complete_intruded (s : State) : s.complete.intruded = s.intruded := rfl
@[simp] theorem State.complete_draws (s : State) : s.complete.draws = s.draws + 1 := rfl

/-! ### resetStep (70_reset_and_hazards.md R130) -/

@[simp] theorem State.resetStep_width (s : State) : s.resetStep.width = 0#32 := rfl
@[simp] theorem State.resetStep_inAddr (s : State) : s.resetStep.inAddr = 0#32 := rfl
@[simp] theorem State.resetStep_inCount (s : State) : s.resetStep.inCount = 0#32 := rfl
@[simp] theorem State.resetStep_outAddr (s : State) : s.resetStep.outAddr = 0#32 := rfl
@[simp] theorem State.resetStep_outCap (s : State) : s.resetStep.outCap = 0#32 := rfl
@[simp] theorem State.resetStep_status (s : State) : s.resetStep.status = Status.idle := rfl
@[simp] theorem State.resetStep_result (s : State) : s.resetStep.result = 0#32 := rfl
@[simp] theorem State.resetStep_ie (s : State) : s.resetStep.ie = false := rfl
@[simp] theorem State.resetStep_engine (s : State) : s.resetStep.engine = freeEngine s.draws := rfl
@[simp] theorem State.resetStep_mem (s : State) : s.resetStep.mem = if s.status.busy then s.mem.scramble s.draws s.outAddr s.req else s.mem := rfl
@[simp] theorem State.resetStep_platform (s : State) : s.resetStep.platform = s.platform := rfl
@[simp] theorem State.resetStep_pending (s : State) : s.resetStep.pending = s.pending := rfl
@[simp] theorem State.resetStep_rdata (s : State) : s.resetStep.rdata = s.rdata := rfl
@[simp] theorem State.resetStep_mdata (s : State) : s.resetStep.mdata = s.mdata := rfl
@[simp] theorem State.resetStep_portLog (s : State) : s.resetStep.portLog = s.portLog := rfl
@[simp] theorem State.resetStep_intruded (s : State) : s.resetStep.intruded = false := rfl
@[simp] theorem State.resetStep_draws (s : State) : s.resetStep.draws = s.draws + 1 := rfl

/-! ### queueFirst -/

@[simp] theorem State.queueFirst_width (s : State) (e : Event) : (s.queueFirst e).width = s.width := rfl
@[simp] theorem State.queueFirst_inAddr (s : State) (e : Event) : (s.queueFirst e).inAddr = s.inAddr := rfl
@[simp] theorem State.queueFirst_inCount (s : State) (e : Event) : (s.queueFirst e).inCount = s.inCount := rfl
@[simp] theorem State.queueFirst_outAddr (s : State) (e : Event) : (s.queueFirst e).outAddr = s.outAddr := rfl
@[simp] theorem State.queueFirst_outCap (s : State) (e : Event) : (s.queueFirst e).outCap = s.outCap := rfl
@[simp] theorem State.queueFirst_status (s : State) (e : Event) : (s.queueFirst e).status = s.status := rfl
@[simp] theorem State.queueFirst_result (s : State) (e : Event) : (s.queueFirst e).result = s.result := rfl
@[simp] theorem State.queueFirst_ie (s : State) (e : Event) : (s.queueFirst e).ie = s.ie := rfl
@[simp] theorem State.queueFirst_engine (s : State) (e : Event) : (s.queueFirst e).engine = s.engine := rfl
@[simp] theorem State.queueFirst_mem (s : State) (e : Event) : (s.queueFirst e).mem = s.mem := rfl
@[simp] theorem State.queueFirst_platform (s : State) (e : Event) : (s.queueFirst e).platform = s.platform := rfl
@[simp] theorem State.queueFirst_pending (s : State) (e : Event) : (s.queueFirst e).pending = e :: s.pending := rfl
@[simp] theorem State.queueFirst_rdata (s : State) (e : Event) : (s.queueFirst e).rdata = s.rdata := rfl
@[simp] theorem State.queueFirst_mdata (s : State) (e : Event) : (s.queueFirst e).mdata = s.mdata := rfl
@[simp] theorem State.queueFirst_portLog (s : State) (e : Event) : (s.queueFirst e).portLog = s.portLog := rfl
@[simp] theorem State.queueFirst_intruded (s : State) (e : Event) : (s.queueFirst e).intruded = s.intruded := rfl
@[simp] theorem State.queueFirst_draws (s : State) (e : Event) : (s.queueFirst e).draws = s.draws := rfl

/-! ### readAccess (43_register_access.md R98) -/

@[simp] theorem State.readAccess_width (s : State) (o : BitVec 6) : (s.readAccess o).width = s.width := rfl
@[simp] theorem State.readAccess_inAddr (s : State) (o : BitVec 6) : (s.readAccess o).inAddr = s.inAddr := rfl
@[simp] theorem State.readAccess_inCount (s : State) (o : BitVec 6) : (s.readAccess o).inCount = s.inCount := rfl
@[simp] theorem State.readAccess_outAddr (s : State) (o : BitVec 6) : (s.readAccess o).outAddr = s.outAddr := rfl
@[simp] theorem State.readAccess_outCap (s : State) (o : BitVec 6) : (s.readAccess o).outCap = s.outCap := rfl
@[simp] theorem State.readAccess_status (s : State) (o : BitVec 6) : (s.readAccess o).status = s.status := rfl
@[simp] theorem State.readAccess_result (s : State) (o : BitVec 6) : (s.readAccess o).result = s.result := rfl
@[simp] theorem State.readAccess_ie (s : State) (o : BitVec 6) : (s.readAccess o).ie = s.ie := rfl
@[simp] theorem State.readAccess_engine (s : State) (o : BitVec 6) : (s.readAccess o).engine = s.engine := rfl
@[simp] theorem State.readAccess_mem (s : State) (o : BitVec 6) : (s.readAccess o).mem = s.mem := rfl
@[simp] theorem State.readAccess_platform (s : State) (o : BitVec 6) : (s.readAccess o).platform = s.platform := rfl
@[simp] theorem State.readAccess_pending (s : State) (o : BitVec 6) : (s.readAccess o).pending = s.pending := rfl
@[simp] theorem State.readAccess_rdata (s : State) (o : BitVec 6) : (s.readAccess o).rdata = s.readReg (Reg.ofOffset o) := rfl
@[simp] theorem State.readAccess_mdata (s : State) (o : BitVec 6) : (s.readAccess o).mdata = s.mdata := rfl
@[simp] theorem State.readAccess_portLog (s : State) (o : BitVec 6) : (s.readAccess o).portLog = s.portLog := rfl
@[simp] theorem State.readAccess_intruded (s : State) (o : BitVec 6) : (s.readAccess o).intruded = s.intruded := rfl
@[simp] theorem State.readAccess_draws (s : State) (o : BitVec 6) : (s.readAccess o).draws = s.draws := rfl

/-! ### writeIrqEn (43_register_access.md R104) -/

@[simp] theorem State.writeIrqEn_width (s : State) (d : Word) : (s.writeIrqEn d).width = s.width := rfl
@[simp] theorem State.writeIrqEn_inAddr (s : State) (d : Word) : (s.writeIrqEn d).inAddr = s.inAddr := rfl
@[simp] theorem State.writeIrqEn_inCount (s : State) (d : Word) : (s.writeIrqEn d).inCount = s.inCount := rfl
@[simp] theorem State.writeIrqEn_outAddr (s : State) (d : Word) : (s.writeIrqEn d).outAddr = s.outAddr := rfl
@[simp] theorem State.writeIrqEn_outCap (s : State) (d : Word) : (s.writeIrqEn d).outCap = s.outCap := rfl
@[simp] theorem State.writeIrqEn_status (s : State) (d : Word) : (s.writeIrqEn d).status = s.status := rfl
@[simp] theorem State.writeIrqEn_result (s : State) (d : Word) : (s.writeIrqEn d).result = s.result := rfl
@[simp] theorem State.writeIrqEn_ie (s : State) (d : Word) : (s.writeIrqEn d).ie = d.getLsbD 0 := rfl
@[simp] theorem State.writeIrqEn_engine (s : State) (d : Word) : (s.writeIrqEn d).engine = s.engine := rfl
@[simp] theorem State.writeIrqEn_mem (s : State) (d : Word) : (s.writeIrqEn d).mem = s.mem := rfl
@[simp] theorem State.writeIrqEn_platform (s : State) (d : Word) : (s.writeIrqEn d).platform = s.platform := rfl
@[simp] theorem State.writeIrqEn_pending (s : State) (d : Word) : (s.writeIrqEn d).pending = s.pending := rfl
@[simp] theorem State.writeIrqEn_rdata (s : State) (d : Word) : (s.writeIrqEn d).rdata = s.rdata := rfl
@[simp] theorem State.writeIrqEn_mdata (s : State) (d : Word) : (s.writeIrqEn d).mdata = s.mdata := rfl
@[simp] theorem State.writeIrqEn_portLog (s : State) (d : Word) : (s.writeIrqEn d).portLog = s.portLog := rfl
@[simp] theorem State.writeIrqEn_intruded (s : State) (d : Word) : (s.writeIrqEn d).intruded = s.intruded := rfl
@[simp] theorem State.writeIrqEn_draws (s : State) (d : Word) : (s.writeIrqEn d).draws = s.draws := rfl

/-! ### hostMemWrite (20_memory.md R56) -/

@[simp] theorem State.hostMemWrite_width (s : State) (a : Word) (v : Byte) : (s.hostMemWrite a v).width = s.width := rfl
@[simp] theorem State.hostMemWrite_inAddr (s : State) (a : Word) (v : Byte) : (s.hostMemWrite a v).inAddr = s.inAddr := rfl
@[simp] theorem State.hostMemWrite_inCount (s : State) (a : Word) (v : Byte) : (s.hostMemWrite a v).inCount = s.inCount := rfl
@[simp] theorem State.hostMemWrite_outAddr (s : State) (a : Word) (v : Byte) : (s.hostMemWrite a v).outAddr = s.outAddr := rfl
@[simp] theorem State.hostMemWrite_outCap (s : State) (a : Word) (v : Byte) : (s.hostMemWrite a v).outCap = s.outCap := rfl
@[simp] theorem State.hostMemWrite_status (s : State) (a : Word) (v : Byte) : (s.hostMemWrite a v).status = s.status := rfl
@[simp] theorem State.hostMemWrite_result (s : State) (a : Word) (v : Byte) : (s.hostMemWrite a v).result = s.result := rfl
@[simp] theorem State.hostMemWrite_ie (s : State) (a : Word) (v : Byte) : (s.hostMemWrite a v).ie = s.ie := rfl
@[simp] theorem State.hostMemWrite_engine (s : State) (a : Word) (v : Byte) : (s.hostMemWrite a v).engine = s.engine := rfl
@[simp] theorem State.hostMemWrite_mem (s : State) (a : Word) (v : Byte) : (s.hostMemWrite a v).mem = s.mem.write a.toNat v := rfl
@[simp] theorem State.hostMemWrite_platform (s : State) (a : Word) (v : Byte) : (s.hostMemWrite a v).platform = s.platform := rfl
@[simp] theorem State.hostMemWrite_pending (s : State) (a : Word) (v : Byte) : (s.hostMemWrite a v).pending = s.pending := rfl
@[simp] theorem State.hostMemWrite_rdata (s : State) (a : Word) (v : Byte) : (s.hostMemWrite a v).rdata = s.rdata := rfl
@[simp] theorem State.hostMemWrite_mdata (s : State) (a : Word) (v : Byte) : (s.hostMemWrite a v).mdata = s.mdata := rfl
@[simp] theorem State.hostMemWrite_portLog (s : State) (a : Word) (v : Byte) : (s.hostMemWrite a v).portLog = s.portLog := rfl
@[simp] theorem State.hostMemWrite_intruded (s : State) (a : Word) (v : Byte) : (s.hostMemWrite a v).intruded = (s.intruded || (s.status.busy && (s.inInput a || s.inOutput a))) := rfl
@[simp] theorem State.hostMemWrite_draws (s : State) (a : Word) (v : Byte) : (s.hostMemWrite a v).draws = s.draws := rfl

end Sys2Proof.Machine
end

