-- ==== Sys2Proof/Laws/Engine.lean ====
section
/-! SUPPORT. What the engine's shared operations can do: the master port, PutBit (41_datapath.md R81) and the loop of R82.
Later proofs cite the `_some` lemmas and do not unfold the operations. -/

namespace Sys2Proof.Machine

/-! ### Single bits -/

/-- ACC[BITPOS] <- b changes the bit BITPOS and no other. -/
theorem getLsbD_setBit (acc : Byte) (p : BitVec 3) (b : Bool) (j : Nat) (hj : j < 8) :
    (setBit acc p b).getLsbD j = if j = p.toNat then b else acc.getLsbD j := by
  have hp := p.isLt
  rw [setBit, BitVec.getLsbD_or, BitVec.getLsbD_and, BitVec.getLsbD_not, BitVec.getLsbD_shiftLeft,
    BitVec.getLsbD_shiftLeft]
  rcases Nat.lt_trichotomy j p.toNat with h | h | h
  · simp [h, hj, Nat.ne_of_lt h]
  · subst h
    cases b <;> simp [hj]
  · have h0 : j - p.toNat ≠ 0 := by omega
    have h1 : ¬j < p.toNat := by omega
    have h2 : j ≠ p.toNat := by omega
    cases b <;> simp [hj, h0, h1, h2]

/-- The mask keeps the low `w` bits (41_datapath.md R80). -/
theorem getLsbD_maskSymbol (w : Nat) (sym : Byte) (i : Nat) :
    (maskSymbol w sym).getLsbD i = (decide (i < w) && sym.getLsbD i) := by
  rw [maskSymbol, BitVec.getLsbD_and, BitVec.getLsbD_ofNat, Nat.testBit_two_pow_sub_one]
  by_cases hi : i < 8
  · simp [hi, Bool.and_comm]
  · simp [hi, BitVec.getLsbD_of_ge sym i (by omega)]

/-! ### The master port -/

theorem portRead_some {s t : State} {a : Word} {v : Byte} (h : s.portRead a = some (v, t)) :
    portAdmits s.platform a .read = true ∧ v = s.byteAt a ∧ t = { s with portLog := s.portLog ++ [.read a] } := by
  unfold State.portRead at h
  split at h
  · cases h; exact ⟨‹_›, rfl, rfl⟩
  · cases h

theorem portRead_of_admit {s : State} {a : Word} (h : portAdmits s.platform a .read = true) :
    s.portRead a = some (s.byteAt a, { s with portLog := s.portLog ++ [.read a] }) := by
  simp [State.portRead, h]

theorem portRead_none {s : State} {a : Word} (h : portAdmits s.platform a .read = false) : s.portRead a = none := by
  simp [State.portRead, h]

theorem portWrite_some {s t : State} {a : Word} {v : Byte} (h : s.portWrite a v = some t) :
    portAdmits s.platform a .write = true ∧ t = { s.setByte a v with portLog := s.portLog ++ [.write a v] } := by
  unfold State.portWrite at h
  split at h
  · cases h; exact ⟨‹_›, rfl⟩
  · cases h

theorem portWrite_of_admit {s : State} {a : Word} {v : Byte} (h : portAdmits s.platform a .write = true) :
    s.portWrite a v = some { s.setByte a v with portLog := s.portLog ++ [.write a v] } := by
  simp [State.portWrite, h]

theorem portWrite_none {s : State} {a : Word} {v : Byte} (h : portAdmits s.platform a .write = false) :
    s.portWrite a v = none := by
  simp [State.portWrite, h]

/-! ### PutBit -/

/-- Everything PutBit can do (41_datapath.md R81): fill the byte and write it, or place the bit and move the cursor. -/
theorem putBit_some {s t : State} {b : Bool} (h : s.putBit b = some t) :
    (s.engine.bitpos = 0#3 ∧ portAdmits s.platform (s.outAddr + s.engine.oidx) .write = true ∧
        t = { s.setByte (s.outAddr + s.engine.oidx) (setBit s.engine.acc 0#3 b) with
              portLog := s.portLog ++ [.write (s.outAddr + s.engine.oidx) (setBit s.engine.acc 0#3 b)]
              engine := { acc := 0x00#8, bitpos := 7#3, idx := s.engine.idx, oidx := s.engine.oidx + 1#32 } }) ∨
      (s.engine.bitpos ≠ 0#3 ∧
        t = { s with engine := { s.engine with acc := setBit s.engine.acc s.engine.bitpos b, bitpos := s.engine.bitpos - 1#3 } }) := by
  unfold State.putBit at h
  split at h
  · rename_i h0
    rw [h0] at h
    obtain ⟨u, hu, rfl⟩ := Option.map_eq_some_iff.1 h
    obtain ⟨ha, rfl⟩ := portWrite_some hu
    exact .inl ⟨h0, ha, rfl⟩
  · cases h
    exact .inr ⟨‹_›, rfl⟩

/-- PutBit has an effect unless it must write where the platform has not admitted it (20_memory.md R42). -/
theorem putBit_isSome {s : State} {b : Bool}
    (h : s.engine.bitpos = 0#3 → portAdmits s.platform (s.outAddr + s.engine.oidx) .write = true) :
    ∃ t, s.putBit b = some t := by
  unfold State.putBit
  split
  · simp only [portWrite_of_admit (h ‹_›)]; exact ⟨_, rfl⟩
  · exact ⟨_, rfl⟩

/-- PutBit touches memory, the port's record and the engine, and nothing else. -/
theorem putBit_frame {s t : State} {b : Bool} (h : s.putBit b = some t) :
    t = { s with mem := t.mem, portLog := t.portLog, engine := t.engine } ∧ t.engine.idx = s.engine.idx := by
  obtain ⟨-, -, rfl⟩ | ⟨-, rfl⟩ := putBit_some h <;> exact ⟨rfl, rfl⟩

theorem putBits_zero (v : Byte) (s : State) : State.putBits v 0 s = some s := rfl

theorem putBits_succ (v : Byte) (n : Nat) (s : State) :
    State.putBits v (n + 1) s = (s.putBit (v.getLsbD n)).bind (State.putBits v n) := rfl

/-- The loop of R82 touches memory, the port's record and the engine, and nothing else; IDX stays. -/
theorem putBits_frame {v : Byte} {n : Nat} {s t : State} (h : State.putBits v n s = some t) :
    t = { s with mem := t.mem, portLog := t.portLog, engine := t.engine } ∧ t.engine.idx = s.engine.idx := by
  induction n generalizing s with
  | zero => cases h; exact ⟨rfl, rfl⟩
  | succ n ih =>
    rw [putBits_succ] at h
    obtain ⟨u, hu, ht⟩ := Option.bind_eq_some_iff.1 h
    obtain ⟨e₁, i₁⟩ := putBit_frame hu
    obtain ⟨e₂, i₂⟩ := ih ht
    refine ⟨?_, i₂.trans i₁⟩
    rw [e₁] at e₂
    exact e₂

/-- PutBit keeps memory canonical. -/
theorem putBit_wf {s t : State} {b : Bool} (h : s.putBit b = some t) (hm : s.mem.wf = true) : t.mem.wf = true := by
  obtain ⟨-, -, rfl⟩ | ⟨-, rfl⟩ := putBit_some h
  · exact Memory.wf_write (BitVec.isLt _) hm
  · exact hm

theorem putBits_wf {v : Byte} {n : Nat} {s t : State} (h : State.putBits v n s = some t) (hm : s.mem.wf = true) :
    t.mem.wf = true := by
  induction n generalizing s with
  | zero => cases h; exact hm
  | succ n ih =>
    rw [putBits_succ] at h
    obtain ⟨u, hu, ht⟩ := Option.bind_eq_some_iff.1 h
    exact ih ht (putBit_wf hu hm)

/-- The byte read at an address after another byte of system memory is set. -/
theorem byteAt_setByte {s : State} (hm : s.mem.wf = true) (a : Word) (v : Byte) (x : Word) :
    (s.setByte a v).byteAt x = if a = x then v else s.byteAt x := by
  rw [State.byteAt, State.setByte_mem, Memory.read_write hm]
  by_cases h : a = x
  · simp [h]
  · rw [if_neg h, if_neg fun e => h (BitVec.eq_of_toNat_eq e)]; rfl

/-! ### The engine's step -/

/-- Everything a RUN step can do (41_datapath.md R82). -/
theorem runStep_some {s t : State} (h : s.runStep = some t) :
    portAdmits s.platform (s.inAddr + s.engine.idx) .read = true ∧
      ∃ u, State.putBits (maskSymbol s.width.toNat (s.byteAt (s.inAddr + s.engine.idx))) s.width.toNat
            { s with portLog := s.portLog ++ [.read (s.inAddr + s.engine.idx)] } = some u ∧
          t = { u with engine := { u.engine with idx := s.engine.idx + 1#32 } } := by
  obtain ⟨⟨v, r⟩, hr, ht⟩ := Option.bind_eq_some_iff.1 h
  obtain ⟨ha, rfl, rfl⟩ := portRead_some hr
  obtain ⟨u, hu, rfl⟩ := Option.map_eq_some_iff.1 ht
  refine ⟨ha, u, hu, ?_⟩
  rw [(putBits_frame hu).2]

theorem flush_some {s t : State} (h : s.flush = some t) :
    (s.engine.bitpos = 7#3 ∧ t = s) ∨
      (s.engine.bitpos ≠ 7#3 ∧ portAdmits s.platform (s.outAddr + s.engine.oidx) .write = true ∧
        t = { s.setByte (s.outAddr + s.engine.oidx) s.engine.acc with
              portLog := s.portLog ++ [.write (s.outAddr + s.engine.oidx) s.engine.acc]
              engine := { s.engine with oidx := s.engine.oidx + 1#32 } }) := by
  unfold State.flush at h
  split at h
  · cases h; exact .inl ⟨‹_›, rfl⟩
  · obtain ⟨u, hu, rfl⟩ := Option.map_eq_some_iff.1 h
    obtain ⟨ha, rfl⟩ := portWrite_some hu
    exact .inr ⟨‹_›, ha, rfl⟩

theorem finishStep_some {s t : State} (h : s.finishStep = some t) : ∃ u, s.flush = some u ∧ t = u.complete := by
  obtain ⟨u, hu, rfl⟩ := Option.map_eq_some_iff.1 h
  exact ⟨u, hu, rfl⟩

/-- The phases, as 10_state.md R37 tabulates them. -/
theorem phase_eq_run {s : State} :
    s.phase = some .run ↔ s.status.busy = true ∧ s.engine.idx.toNat < s.inCount.toNat := by
  unfold State.phase
  split <;> [skip; split <;> [skip; split]] <;> simp_all

theorem phase_eq_finish {s : State} :
    s.phase = some .finish ↔ s.status.busy = true ∧ s.engine.idx = s.inCount := by
  unfold State.phase
  split <;> [skip; split <;> [skip; split]] <;> simp_all
  intro h
  simp [h] at *

theorem phase_eq_idle {s : State} : s.phase = some .idle ↔ s.status.busy = false := by
  unfold State.phase
  split <;> [skip; split <;> [skip; split]] <;> simp_all

/-- Everything the engine's enabled step can be (10_state.md R37). -/
theorem engineStep_some {s t : State} (h : s.engineStep = some t) :
    (s.status.busy = true ∧ s.engine.idx.toNat < s.inCount.toNat ∧ s.runStep = some t) ∨
      (s.status.busy = true ∧ s.engine.idx = s.inCount ∧ s.finishStep = some t) := by
  unfold State.engineStep at h
  split at h
  · rename_i hp; obtain ⟨hb, hi⟩ := phase_eq_run.1 hp; exact .inl ⟨hb, hi, h⟩
  · rename_i hp; obtain ⟨hb, hi⟩ := phase_eq_finish.1 hp; exact .inr ⟨hb, hi, h⟩
  · cases h
  · cases h

theorem engineStep_run {s : State} (hb : s.status.busy = true) (hi : s.engine.idx.toNat < s.inCount.toNat) :
    s.engineStep = s.runStep := by
  simp [State.engineStep, phase_eq_run.2 ⟨hb, hi⟩]

theorem engineStep_finish {s : State} (hb : s.status.busy = true) (hi : s.engine.idx = s.inCount) :
    s.engineStep = s.finishStep := by
  simp [State.engineStep, phase_eq_finish.2 ⟨hb, hi⟩]

theorem engineStep_idle {s : State} (hb : s.status.busy = false) : s.engineStep = none := by
  simp [State.engineStep, phase_eq_idle.2 hb]

/-- The engine's step touches memory, the port's record and the engine's registers; FINISH also the status, RESULT and the
count of draws. -/
theorem engineStep_frame {s t : State} (h : s.engineStep = some t) :
    t = { s with mem := t.mem, portLog := t.portLog, engine := t.engine } ∧ s.phase = some .run ∨
      t = { s with
        mem := t.mem, portLog := t.portLog, engine := t.engine, status := Status.success, result := t.result
        draws := s.draws + 1 } ∧ s.phase = some .finish := by
  obtain ⟨hb, hi, hr⟩ | ⟨hb, hi, hf⟩ := engineStep_some h
  · refine .inl ⟨?_, phase_eq_run.2 ⟨hb, hi⟩⟩
    obtain ⟨-, u, hu, rfl⟩ := runStep_some hr
    have e := (putBits_frame hu).1
    rw [e]
  · refine .inr ⟨?_, phase_eq_finish.2 ⟨hb, hi⟩⟩
    obtain ⟨u, hu, rfl⟩ := finishStep_some hf
    obtain ⟨-, rfl⟩ | ⟨-, -, rfl⟩ := flush_some hu <;> rfl

/-- The engine's turn is its enabled step, or nothing. -/
theorem engineTurn_cases (s : State) :
    s.engineTurn = s ∧ s.engineStep = none ∨ ∃ t, s.engineStep = some t ∧ s.engineTurn = t := by
  unfold State.engineTurn
  cases h : s.engineStep with
  | none => exact .inl ⟨rfl, rfl⟩
  | some t => exact .inr ⟨t, rfl, rfl⟩

end Sys2Proof.Machine
end

