-- ==== Sys2Proof/Laws/Operands.lean ====
section
/-! SUPPORT. What PACK's checks and ranges mean, in plain arithmetic (40_pack.md R71 to R73, 20_memory.md R52, R57). -/

namespace Sys2Proof.Machine

/-- 40_pack.md R71. -/
theorem widthLegal_iff {s : State} : s.widthLegal = true ↔ 1 ≤ s.width.toNat ∧ s.width.toNat ≤ 8 := by
  unfold State.widthLegal Config.wMin Config.wMax
  rw [Bool.and_eq_true, decide_eq_true_iff, decide_eq_true_iff]

/-- 40_pack.md R73. -/
theorem capacityEnough_iff {s : State} : s.capacityEnough = true ↔ s.req ≤ s.outCap.toNat := by
  rw [State.capacityEnough, decide_eq_true_iff]

/-- REQ is the least number of bytes that holds N * W bits (40_pack.md R72). -/
theorem req_le_iff {s : State} {k : Nat} : s.req ≤ k ↔ s.inCount.toNat * s.width.toNat ≤ 8 * k := by
  unfold State.req ceilDiv
  omega

/-- The bits of an operation with a legal width: at most 8 * N (40_pack.md R72). -/
theorem bits_le {s : State} (h : s.width.toNat ≤ 8) : s.inCount.toNat * s.width.toNat ≤ 8 * s.inCount.toNat := by
  rw [Nat.mul_comm]
  exact Nat.mul_le_mul_right _ h

/-- For a legal width REQ is at most N, so it fits in 32 bits (40_pack.md R72). -/
theorem req_le_count {s : State} (h : s.width.toNat ≤ 8) : s.req ≤ s.inCount.toNat :=
  req_le_iff.2 (bits_le h)

/-- 20_memory.md R52. -/
theorem selfTargets_iff {s : State} : s.selfTargets = true ↔ s.TargetsWindow := by
  unfold State.selfTargets State.TargetsWindow State.inInput State.inOutput
  rw [Bool.and_eq_true, Bool.or_eq_true, rangesMeet_iff, rangesMeet_iff]
  constructor
  · rintro ⟨h, ⟨x, hx, hw⟩ | ⟨x, hx, hw⟩⟩
    · exact ⟨h, x, hw, .inl hx⟩
    · exact ⟨h, x, hw, .inr hx⟩
  · rintro ⟨h, x, hw, hx | hx⟩
    · exact ⟨h, .inl ⟨x, hx, hw⟩⟩
    · exact ⟨h, .inr ⟨x, hx, hw⟩⟩

/-- 20_memory.md R57. -/
theorem overlaps_iff {s : State} : s.overlaps = true ↔ ∃ a, s.inInput a = true ∧ s.inOutput a = true :=
  rangesMeet_iff

/-- 20_memory.md R56 (b), R57: when the output range is open at completion. -/
theorem outputOpen_iff {s : State} :
    s.outputOpen = true ↔ (∃ a, s.inInput a = true ∧ s.inOutput a = true) ∨ s.intruded = true := by
  rw [State.outputOpen, Bool.or_eq_true, overlaps_iff, or_comm]

/-- Symbol `j` of the operation is in the input range. -/
theorem inInput_inputAddr {s : State} {j : Nat} (h : j < s.inCount.toNat) : s.inInput (s.inputAddr j) = true :=
  inRange_offset h (lt_trans h s.inCount.isLt)

/-- Output byte `k` of the operation is in the output range. -/
theorem inOutput_outputAddr {s : State} {k : Nat} (h : k < s.req) (hk : k < 2 ^ 32) :
    s.inOutput (s.outputAddr k) = true :=
  inRange_offset h hk

end Sys2Proof.Machine
end

