-- ==== Sys2Proof/Laws/Packing.lean ====
section
/-! SUPPORT. What PutBit and its loop do to the stream that is being placed: the number of bits placed, the bits of ACC and of
the bytes already written, the port's record, and when the loop has an effect at all. -/

namespace Sys2Proof.Machine

/-- `p` bits are placed: the cursor stands after them and ACC is 0 from the cursor down (41_datapath.md R90 (b), (c)). -/
structure Cursor (s : State) (p : Nat) : Prop where
  count : 8 * s.engine.oidx.toNat + (7 - s.engine.bitpos.toNat) = p
  low : ∀ j < s.engine.bitpos.toNat + 1, s.engine.acc.getLsbD j = false

/-- The bits placed are those of `f`: in ACC above the cursor, and in the bytes already written (41_datapath.md R90 (d), (e)). -/
structure Placed (f : Nat → Bool) (s : State) : Prop where
  acc : ∀ q < 7 - s.engine.bitpos.toNat, s.engine.acc.getLsbD (7 - q) = f (8 * s.engine.oidx.toNat + q)
  bytes : ∀ k < s.engine.oidx.toNat, ∀ q < 8, (s.byteAt (s.outputAddr k)).getLsbD (7 - q) = f (8 * k + q)

theorem bitpos_pred {p : BitVec 3} (h : p ≠ 0#3) : (p - 1#3).toNat + 1 = p.toNat := by
  revert p; decide

theorem outputAddr_ofNat_toNat (s : State) (w : Word) : s.outputAddr w.toNat = s.outAddr + w := by
  simp [State.outputAddr]

theorem inputAddr_ofNat_toNat (s : State) (w : Word) : s.inputAddr w.toNat = s.inAddr + w := by
  simp [State.inputAddr]

theorem word_toNat_succ {w : Word} (h : w.toNat + 1 < 2 ^ 32) : (w + 1#32).toNat = w.toNat + 1 := by
  rw [BitVec.toNat_add]; simp; omega

@[simp] theorem portReads_append_read (l : List PortAccess) (a : Word) :
    portReads (l ++ [.read a]) = portReads l ++ [a] := by simp [portReads]

@[simp] theorem portReads_append_write (l : List PortAccess) (a : Word) (v : Byte) :
    portReads (l ++ [.write a v]) = portReads l := by simp [portReads]

@[simp] theorem portWrites_append_read (l : List PortAccess) (a : Word) :
    portWrites (l ++ [.read a]) = portWrites l := by simp [portWrites]

@[simp] theorem portWrites_append_write (l : List PortAccess) (a : Word) (v : Byte) :
    portWrites (l ++ [.write a v]) = portWrites l ++ [a] := by simp [portWrites]

/-- The first n + 1 addresses of a range are the first n and one more. -/
theorem range_succ_map {f : Nat → Word} (n : Nat) : (List.range (n + 1)).map f = (List.range n).map f ++ [f n] := by
  rw [List.range_succ, List.map_append]; rfl

/-- PutBit places one bit more. -/
theorem putBit_cursor {s t : State} {b : Bool} {p : Nat} (hc : Cursor s p) (hov : s.engine.oidx.toNat + 1 < 2 ^ 32)
    (h : s.putBit b = some t) : Cursor t (p + 1) := by
  have hlt := s.engine.bitpos.isLt
  obtain ⟨h0, -, rfl⟩ | ⟨h0, rfl⟩ := putBit_some h
  · refine ⟨?_, fun j _ => by simp⟩
    have := hc.count
    rw [h0] at this
    simp only [word_toNat_succ hov]
    simp at this ⊢
    omega
  · have hp := bitpos_pred h0
    refine ⟨?_, fun j hj => ?_⟩
    · have := hc.count
      simp only
      omega
    · simp only at hj ⊢
      rw [getLsbD_setBit _ _ _ _ (by omega), if_neg (by omega)]
      exact hc.low j (by omega)

/-- PutBit of the next bit of `f` keeps the bits placed those of `f`. -/
theorem putBit_placed {f : Nat → Bool} {s t : State} {p : Nat} (hc : Cursor s p) (hf : Placed f s)
    (hm : s.mem.wf = true) (hov : s.engine.oidx.toNat + 1 < 2 ^ 32) (h : s.putBit (f p) = some t) : Placed f t := by
  have hlt := s.engine.bitpos.isLt
  have hcount := hc.count
  obtain ⟨h0, -, rfl⟩ | ⟨h0, rfl⟩ := putBit_some h
  · have hz : s.engine.bitpos.toNat = 0 := by rw [h0]; rfl
    refine ⟨fun q hq => absurd hq (by simp), fun k hk q hq => ?_⟩
    simp only [word_toNat_succ hov] at hk
    change ((s.setByte (s.outAddr + s.engine.oidx) _).byteAt (s.outputAddr k)).getLsbD (7 - q) = f (8 * k + q)
    rw [byteAt_setByte hm]
    by_cases hkk : k = s.engine.oidx.toNat
    · subst hkk
      rw [if_pos (outputAddr_ofNat_toNat s _).symm, getLsbD_setBit _ _ _ _ (by omega)]
      by_cases hq7 : q = 7
      · subst hq7
        rw [if_pos (by rfl)]
        congr 1
        omega
      · rw [if_neg (by simp; omega)]
        exact hf.acc q (by omega)
    · rw [if_neg]
      · exact hf.bytes k (by omega) q hq
      · intro e
        rw [← outputAddr_ofNat_toNat] at e
        exact hkk (offset_inj (by omega) s.engine.oidx.isLt e.symm)
  · have hp := bitpos_pred h0
    refine ⟨fun q hq => ?_, hf.bytes⟩
    simp only at hq ⊢
    rw [getLsbD_setBit _ _ _ _ (by omega)]
    by_cases hqq : 7 - q = s.engine.bitpos.toNat
    · rw [if_pos hqq]
      congr 1
      omega
    · rw [if_neg hqq]
      exact hf.acc q (by omega)

/-- PutBit writes only the byte under the cursor. -/
theorem putBit_other {s t : State} {b : Bool} (hm : s.mem.wf = true) (h : s.putBit b = some t) {a : Word}
    (ha : a ≠ s.outAddr + s.engine.oidx) : t.byteAt a = s.byteAt a := by
  obtain ⟨-, -, rfl⟩ | ⟨-, rfl⟩ := putBit_some h
  · exact (byteAt_setByte hm _ _ a).trans (if_neg (Ne.symm ha))
  · rfl

/-- PutBit appends to the port's record the writes of the bytes it finishes, and no read. -/
theorem putBit_port {s t : State} {b : Bool} (hov : s.engine.oidx.toNat + 1 < 2 ^ 32) (h : s.putBit b = some t)
    (hw : portWrites s.portLog = (List.range s.engine.oidx.toNat).map s.outputAddr) :
    portReads t.portLog = portReads s.portLog ∧
      portWrites t.portLog = (List.range t.engine.oidx.toNat).map s.outputAddr := by
  obtain ⟨-, -, rfl⟩ | ⟨-, rfl⟩ := putBit_some h
  · refine ⟨portReads_append_write _ _ _, ?_⟩
    simp only [word_toNat_succ hov, range_succ_map, ← hw, outputAddr_ofNat_toNat, portWrites_append_write]
  · exact ⟨rfl, hw⟩

/-- The cursor has room for one byte more while bits of the operation remain. -/
theorem oidx_room {s t : State} {b : Bool} {p n B : Nat} (hc : Cursor s p) (hB : p + (n + 1) ≤ B)
    (hB' : B ≤ 8 * (2 ^ 32 - 1)) (h : s.putBit b = some t) : s.engine.oidx.toNat + 1 < 2 ^ 32 := by
  have hcount := hc.count
  obtain ⟨h0, -, -⟩ | ⟨h0, -⟩ := putBit_some h
  · have : s.engine.bitpos.toNat = 0 := by rw [h0]; rfl
    omega
  · have := bitpos_pred h0
    have := s.engine.bitpos.isLt
    omega

/-- The loop of R82 places its bits. -/
theorem putBits_cursor {v : Byte} {n p B : Nat} {s t : State} (hc : Cursor s p) (hB : p + n ≤ B)
    (hB' : B ≤ 8 * (2 ^ 32 - 1)) (h : State.putBits v n s = some t) : Cursor t (p + n) := by
  induction n generalizing s p with
  | zero => cases h; exact hc
  | succ n ih =>
    rw [putBits_succ] at h
    obtain ⟨u, hu, ht⟩ := Option.bind_eq_some_iff.1 h
    rw [show p + (n + 1) = p + 1 + n by omega]
    exact ih (putBit_cursor hc (oidx_room hc hB hB' hu) hu) (by omega) ht

/-- The loop of R82: everything it does to the stream, when `B` bounds the bits of the operation. -/
theorem putBits_spec {v : Byte} {n p B : Nat} {s t : State} (hc : Cursor s p) (hm : s.mem.wf = true)
    (hB : p + n ≤ B) (hB' : B ≤ 8 * (2 ^ 32 - 1))
    (hw : portWrites s.portLog = (List.range s.engine.oidx.toNat).map s.outputAddr)
    (h : State.putBits v n s = some t) :
    Cursor t (p + n) ∧ t.mem.wf = true ∧
      portReads t.portLog = portReads s.portLog ∧
      portWrites t.portLog = (List.range t.engine.oidx.toNat).map s.outputAddr ∧
      (∀ a, (∀ k, 8 * k < B → a ≠ s.outputAddr k) → t.byteAt a = s.byteAt a) ∧
      ∀ f : Nat → Bool, Placed f s → (∀ i < n, v.getLsbD (n - 1 - i) = f (p + i)) → Placed f t := by
  induction n generalizing s p with
  | zero => cases h; exact ⟨hc, hm, rfl, hw, fun _ _ => rfl, fun _ hf _ => hf⟩
  | succ n ih =>
    rw [putBits_succ] at h
    obtain ⟨u, hu, ht⟩ := Option.bind_eq_some_iff.1 h
    have hcount := hc.count
    have hov := oidx_room hc hB hB' hu
    have hcu := putBit_cursor hc hov hu
    have hmu := putBit_wf hu hm
    obtain ⟨hr₁, hw₁⟩ := putBit_port hov hu hw
    have hf₁ := (putBit_frame hu).1
    have houtu : u.outputAddr = s.outputAddr := by rw [hf₁]; rfl
    rw [← houtu] at hw₁
    obtain ⟨hct, hmt, hrt, hwt, hot, hpt⟩ := ih hcu hmu (by omega) hw₁ ht
    rw [houtu] at hwt hot
    refine ⟨by rwa [show p + (n + 1) = p + 1 + n by omega], hmt, hrt.trans hr₁, hwt, fun a ha => ?_, fun f hf hv => ?_⟩
    · refine (hot a ha).trans (putBit_other hm hu ?_)
      rw [← outputAddr_ofNat_toNat]
      exact ha _ (by omega)
    · have hb : v.getLsbD n = f p := by simpa using hv 0 (by omega)
      refine hpt f (putBit_placed hc hf hm hov (by rw [← hb]; exact hu)) fun i hi => ?_
      have := hv (i + 1) (by omega)
      rw [show n + 1 - 1 - (i + 1) = n - 1 - i by omega, show p + (i + 1) = p + 1 + i by omega] at this
      exact this

/-- The loop has an effect when the platform admits every write of the operation (20_memory.md R42). -/
theorem putBits_isSome {v : Byte} {n p B : Nat} {s : State} (hc : Cursor s p) (hB : p + n ≤ B) (hB' : B ≤ 8 * (2 ^ 32 - 1))
    (ha : ∀ k, 8 * k < B → portAdmits s.platform (s.outputAddr k) .write = true) :
    ∃ t, State.putBits v n s = some t := by
  induction n generalizing s p with
  | zero => exact ⟨s, rfl⟩
  | succ n ih =>
    have hcount := hc.count
    have hpos := s.engine.bitpos.isLt
    obtain ⟨u, hu⟩ := putBit_isSome (s := s) (b := v.getLsbD n) fun _ => by
      rw [← outputAddr_ofNat_toNat]; exact ha _ (by omega)
    have hov := oidx_room hc hB hB' hu
    have hf := (putBit_frame hu).1
    obtain ⟨t, ht⟩ := ih (putBit_cursor hc hov hu) (by omega) (s := u) (by rw [hf]; exact ha)
    exact ⟨t, by rw [putBits_succ, hu]; exact ht⟩

/-! ### The RUN and FINISH steps of an operation in progress -/

/-- R90 (b), (c) as `Cursor`. -/
theorem cursor_of_engineInv {s : State} (hb : s.status.busy = true) (h : s.EngineInv) :
    Cursor s (s.engine.idx.toNat * s.width.toNat) :=
  ⟨(h hb).2.1, (h hb).2.2.1⟩

/-- R90 (a), (b), (c), (f) from a cursor that stands after the bits of the first IDX symbols. -/
theorem engineInv_of_cursor {s : State} (hi : s.engine.idx.toNat ≤ s.inCount.toNat)
    (h : Cursor s (s.engine.idx.toNat * s.width.toNat)) : s.EngineInv := by
  intro _
  have hle : s.engine.idx.toNat * s.width.toNat ≤ s.inCount.toNat * s.width.toNat := Nat.mul_le_mul_right _ hi
  have hcount := h.count
  have hpos := s.engine.bitpos.isLt
  refine ⟨hi, hcount, h.low, ?_, fun h7 => ?_⟩
  · have : ¬s.req < s.engine.oidx.toNat := fun hlt => by
      have := (req_le_iff (s := s) (k := s.engine.oidx.toNat - 1)).1 (by omega)
      omega
    omega
  · have h7' : s.engine.bitpos.toNat ≠ 7 := fun e => h7 (BitVec.eq_of_toNat_eq e)
    have : ¬s.req ≤ s.engine.oidx.toNat := fun hle' => by
      have := req_le_iff.1 hle'
      omega
    omega

/-- Bit `i` of the selected bits of symbol IDX, MSB first, is the output bit after those of the first IDX symbols
(41_datapath.md R86). -/
theorem outputBit_of_symbol {s : State} {j i : Nat} (hj : j < s.inCount.toNat) (hi : i < s.width.toNat) :
    s.outputBit (j * s.width.toNat + i) = (s.symbol j).getLsbD (s.width.toNat - 1 - i) := by
  have hlt : j * s.width.toNat + i < s.inCount.toNat * s.width.toNat :=
    calc j * s.width.toNat + i < j * s.width.toNat + s.width.toNat := by omega
      _ = (j + 1) * s.width.toNat := (Nat.succ_mul _ _).symm
      _ ≤ s.inCount.toNat * s.width.toNat := Nat.mul_le_mul_right _ hj
  have hd : (j * s.width.toNat + i) / s.width.toNat = j := by
    rw [Nat.mul_comm, Nat.mul_add_div (by omega), Nat.div_eq_of_lt hi, Nat.add_zero]
  have hm : (j * s.width.toNat + i) % s.width.toNat = i := by
    rw [Nat.mul_comm, Nat.mul_add_mod, Nat.mod_eq_of_lt hi]
  rw [State.outputBit, decide_eq_true hlt, Bool.true_and, State.streamBit, hd, hm]

/-- Everything a RUN step of an operation in progress does to the stream. -/
theorem runStep_spec {s t : State} (hb : s.status.busy = true) (hi : s.engine.idx.toNat < s.inCount.toNat)
    (hw : s.width.toNat ≤ 8) (he : s.EngineInv) (hp : s.PortInv) (hm : s.MemInv) (h : s.runStep = some t) :
    t = { s with mem := t.mem, portLog := t.portLog, engine := t.engine } ∧
      t.engine.idx.toNat = s.engine.idx.toNat + 1 ∧
      Cursor t (t.engine.idx.toNat * s.width.toNat) ∧
      t.MemInv ∧ t.PortInv ∧
      (∀ a, s.inOutput a = false → t.byteAt a = s.byteAt a) ∧
      (Placed s.outputBit s → Placed s.outputBit t) := by
  obtain ⟨-, u, hu, rfl⟩ := runStep_some h
  obtain ⟨hr, hwr⟩ := hp hb
  have hbits := bits_le hw
  have hN := s.inCount.isLt
  have hidx : (s.engine.idx + 1#32).toNat = s.engine.idx.toNat + 1 := word_toNat_succ (by omega)
  have hstep : s.engine.idx.toNat * s.width.toNat + s.width.toNat ≤ s.inCount.toNat * s.width.toNat :=
    (Nat.succ_mul _ _).symm.trans_le (Nat.mul_le_mul_right _ hi)
  have hframe := (putBits_frame hu).1
  have hin : u.inputAddr = s.inputAddr := by rw [hframe]; rfl
  have hout : u.outputAddr = s.outputAddr := by rw [hframe]; rfl
  obtain ⟨hc, hmu, hru, hwu, hother, hplaced⟩ :=
    putBits_spec (p := s.engine.idx.toNat * s.width.toNat) (B := s.inCount.toNat * s.width.toNat)
      (s := { s with portLog := s.portLog ++ [.read (s.inAddr + s.engine.idx)] })
      ⟨(he hb).2.1, (he hb).2.2.1⟩ hm hstep (by omega) ((portWrites_append_read _ _).trans hwr) hu
  refine ⟨by rw [hframe], hidx, ?_, hmu, fun _ => ⟨?_, ?_⟩, fun a ha => hother a fun k hk e => ?_, fun hf => ?_⟩
  · simp only [hidx, Nat.succ_mul]
    exact ⟨hc.count, hc.low⟩
  · change portReads u.portLog = (List.range (s.engine.idx + 1#32).toNat).map u.inputAddr
    rw [hin, hru, hidx, range_succ_map, portReads_append_read, hr, inputAddr_ofNat_toNat]
  · change portWrites u.portLog = (List.range u.engine.oidx.toNat).map u.outputAddr
    rw [hout, hwu]; rfl
  · subst e
    have hk' : k < s.req := by
      by_contra hle
      have := req_le_iff.1 (not_lt.1 hle)
      omega
    have := req_le_count hw
    exact Bool.noConfusion (ha.symm.trans (inOutput_outputAddr hk' (by omega)))
  · have hu' := hplaced s.outputBit ⟨hf.acc, hf.bytes⟩ fun i hi' => ?_
    · exact ⟨hu'.acc, hu'.bytes⟩
    · rw [outputBit_of_symbol hi hi', State.symbol, inputAddr_ofNat_toNat]

/-- A RUN step of an operation in progress exists when the platform admits its accesses (20_memory.md R42). -/
theorem runStep_isSome {s : State} (hb : s.status.busy = true) (hi : s.engine.idx.toNat < s.inCount.toNat)
    (hw : s.width.toNat ≤ 8) (he : s.EngineInv) (ha : s.AllAdmitted) : ∃ t, s.runStep = some t := by
  have hbits := bits_le hw
  have hN := s.inCount.isLt
  have hstep : s.engine.idx.toNat * s.width.toNat + s.width.toNat ≤ s.inCount.toNat * s.width.toNat :=
    (Nat.succ_mul _ _).symm.trans_le (Nat.mul_le_mul_right _ hi)
  have hread := portRead_of_admit (s := s) (a := s.inAddr + s.engine.idx) (by
    rw [← inputAddr_ofNat_toNat]; exact ha.1 _ hi)
  obtain ⟨u, hu⟩ := putBits_isSome (v := maskSymbol s.width.toNat (s.byteAt (s.inAddr + s.engine.idx)))
    (n := s.width.toNat) (p := s.engine.idx.toNat * s.width.toNat) (B := s.inCount.toNat * s.width.toNat)
    (s := { s with portLog := s.portLog ++ [.read (s.inAddr + s.engine.idx)] })
    ⟨(he hb).2.1, (he hb).2.2.1⟩ hstep (by omega) fun k hk => ha.2 k (by
      by_contra hle
      have := req_le_iff.1 (not_lt.1 hle)
      omega)
  simp only [State.runStep, hread, Option.bind_some, hu, Option.map_some]
  exact ⟨_, rfl⟩

/-- Completion makes the output range free where it is open, and leaves every other byte (20_memory.md R56, R57). -/
theorem byteAt_complete {s : State} (hm : s.MemInv) (hr : s.req ≤ 2 ^ 32) (a : Word) :
    s.complete.byteAt a =
      if s.outputOpen = true ∧ s.inOutput a = true then Config.freeByte s.draws a else s.byteAt a := by
  rw [State.byteAt, State.complete_mem]
  cases ho : s.outputOpen
  · simp [State.byteAt]
  · rw [if_pos rfl, Memory.read_scramble hm _ _ _ hr]
    simp only [State.inOutput, State.byteAt, true_and]

/-- Everything the flush of the last byte does in the FINISH phase: afterwards OIDX is REQ and the output bytes stand, the last
one zero padded (41_datapath.md R84, R85, R87). -/
theorem flush_spec {s t : State} (hb : s.status.busy = true) (hi : s.engine.idx = s.inCount) (hw : s.width.toNat ≤ 8)
    (he : s.EngineInv) (hm : s.MemInv) (h : s.flush = some t) :
    t = { s with mem := t.mem, portLog := t.portLog, engine := t.engine } ∧
      t.engine.oidx.toNat = s.req ∧ t.MemInv ∧
      portReads t.portLog = portReads s.portLog ∧
      (portWrites s.portLog = (List.range s.engine.oidx.toNat).map s.outputAddr →
        portWrites t.portLog = (List.range s.req).map s.outputAddr) ∧
      (∀ a, s.inOutput a = false → t.byteAt a = s.byteAt a) ∧
      (Placed s.outputBit s → ∀ k < s.req, s.holdsOutputByte t k) := by
  have hc := cursor_of_engineInv hb he
  rw [hi] at hc
  have hcount := hc.count
  have hreq := req_le_count hw
  have hreq' : s.req = (s.inCount.toNat * s.width.toNat + 7) / 8 := rfl
  have hN := s.inCount.isLt
  have hpos := s.engine.bitpos.isLt
  obtain ⟨h7, rfl⟩ | ⟨h7, -, rfl⟩ := flush_some h
  · have h7' : t.engine.bitpos.toNat = 7 := by rw [h7]; rfl
    have hr : t.engine.oidx.toNat = t.req := by omega
    exact ⟨rfl, hr, hm, rfl, fun hp => by rw [hp, hr], fun _ _ => rfl, fun hp k hk => hp.bytes k (by omega)⟩
  · have h7' : s.engine.bitpos.toNat ≠ 7 := fun e => h7 (BitVec.eq_of_toNat_eq e)
    have hr : s.engine.oidx.toNat + 1 = s.req := by omega
    have hov : (s.engine.oidx + 1#32).toNat = s.engine.oidx.toNat + 1 := word_toNat_succ (by omega)
    refine ⟨rfl, hov.trans hr, Memory.wf_write (BitVec.isLt _) hm, portReads_append_write _ _ _, fun hp => ?_,
      fun a ha => ?_, fun hp k hk q hq => ?_⟩
    · simp only [portWrites_append_write, hp, ← hr, range_succ_map, outputAddr_ofNat_toNat]
    · refine (byteAt_setByte hm _ _ a).trans (if_neg ?_)
      rintro rfl
      rw [← outputAddr_ofNat_toNat, inOutput_outputAddr (by omega) (by omega)] at ha
      cases ha
    · refine (congrArg (BitVec.getLsbD · (7 - q)) (byteAt_setByte hm _ _ (s.outputAddr k))).trans ?_
      by_cases hk' : k = s.engine.oidx.toNat
      · subst hk'
        rw [if_pos (outputAddr_ofNat_toNat s _).symm]
        by_cases hq7 : q < 7 - s.engine.bitpos.toNat
        · exact hp.acc q hq7
        · rw [hc.low _ (by omega), State.outputBit, decide_eq_false (by omega), Bool.false_and]
      · rw [if_neg]
        · exact hp.bytes k (by omega) q hq
        · rw [← outputAddr_ofNat_toNat]
          exact fun e => hk' (offset_inj (by omega) s.engine.oidx.isLt e.symm)

/-- A FINISH step of an operation in progress exists when the platform admits its write (20_memory.md R42). -/
theorem finishStep_isSome {s : State} (hb : s.status.busy = true) (he : s.EngineInv) (ha : s.AllAdmitted) :
    ∃ t, s.finishStep = some t := by
  unfold State.finishStep State.flush
  split
  · exact ⟨_, rfl⟩
  · rw [portWrite_of_admit (by rw [← outputAddr_ofNat_toNat]; exact ha.2 _ ((he hb).2.2.2.2 ‹_›))]
    exact ⟨_, rfl⟩

/-- The output function depends on memory only through the input range. -/
theorem outputBit_congr {s t : State} (ha : t.inAddr = s.inAddr) (hc : t.inCount = s.inCount) (hw : t.width = s.width)
    (hm : ∀ a, s.inInput a = true → t.byteAt a = s.byteAt a) : t.outputBit = s.outputBit := by
  funext p
  unfold State.outputBit State.streamBit State.symbol State.inputAddr
  rw [ha, hc, hw]
  by_cases h : p < s.inCount.toNat * s.width.toNat
  · have hj : p / s.width.toNat < s.inCount.toNat := Nat.div_lt_of_lt_mul (by rwa [Nat.mul_comm] at h)
    have he := hm _ (inInput_inputAddr hj)
    unfold State.inputAddr at he
    rw [he]
  · simp [h]

/-- R90 (d), (e) as `Placed`. -/
theorem placed_iff {s : State} (hb : s.status.busy = true) (he : s.EngineInv) :
    Placed s.outputBit s ↔
      (∀ q < 7 - s.engine.bitpos.toNat,
          s.engine.acc.getLsbD (7 - q) = s.streamBit (8 * s.engine.oidx.toNat + q)) ∧
        ∀ k < s.engine.oidx.toNat, s.holdsOutputByte s k := by
  have hcount := (cursor_of_engineInv hb he).count
  have hle : s.engine.idx.toNat * s.width.toNat ≤ s.inCount.toNat * s.width.toNat :=
    Nat.mul_le_mul_right _ (he hb).1
  have hbit : ∀ q < 7 - s.engine.bitpos.toNat,
      s.outputBit (8 * s.engine.oidx.toNat + q) = s.streamBit (8 * s.engine.oidx.toNat + q) := fun q hq => by
    rw [State.outputBit, decide_eq_true (by omega), Bool.true_and]
  constructor
  · exact fun h => ⟨fun q hq => (h.acc q hq).trans (hbit q hq), h.bytes⟩
  · exact fun h => ⟨fun q hq => (h.1 q hq).trans (hbit q hq).symm, h.2⟩

end Sys2Proof.Machine
end

