-- ==== Sys2Proof/Laws/PerInstr.lean ====
section
/-! SUPPORT. Facts about every command as syntax, one lemma per constructor. Family MbzZero: the command's word has MBZ = 0 and
its own OP (30_encoding.md R64, R65), and the command is well-formed. -/

namespace Sys2Proof.Laws.MbzZero

/-- The word of `i` is {28 zero bits, OP of `i`} (30_encoding.md R64). -/
def Statement (i : Instr) : Prop := mbzField (encode i) = 0#28 ∧ opField (encode i) = i.op ∧ i.wf = true

theorem nop : Statement .nop := ⟨rfl, rfl, rfl⟩
theorem pack : Statement .pack := ⟨rfl, rfl, rfl⟩
theorem clear : Statement .clear := ⟨rfl, rfl, rfl⟩

end Sys2Proof.Laws.MbzZero
end

