-- ==== Sys2Proof/Laws/Step.lean ====
section
/-! SUPPORT. What a command, a register access and a whole step can do: one inversion lemma each, from which the invariants
and frames are derived without unfolding them. -/

namespace Sys2Proof.Machine

/-! ### Commands -/

/-- Everything a command can do when it answers a next state: nothing, or one of the completions of 40_pack.md R70 and
42_control.md R94, all while BUSY = 0. -/
theorem exec_next {i : Instr} {s t : State} (h : exec i s = .next t) :
    t = s ∨
      s.status.busy = false ∧
        (i = .clear ∧ t = s.acknowledge ∨
          i = .pack ∧ s.widthLegal = false ∧ t = s.acknowledge.raiseError .invalidWidth ∨
          i = .pack ∧ s.widthLegal = true ∧ s.capacityEnough = false ∧ t = s.acknowledge.raiseError .bufferTooSmall ∨
          i = .pack ∧ s.widthLegal = true ∧ s.capacityEnough = true ∧ s.selfTargets = false ∧ t = s.acknowledge.accept) := by
  cases i with
  | nop => cases h; exact .inl rfl
  | clear =>
    simp only [exec, execClear] at h
    split at h <;> cases h
    · exact .inl rfl
    · exact .inr ⟨by simpa using ‹¬s.status.busy = true›, .inl ⟨rfl, rfl⟩⟩
  | pack =>
    simp only [exec, execPack] at h
    cases hb : s.status.busy <;> cases hw : s.widthLegal <;> cases hc : s.capacityEnough <;> cases ht : s.selfTargets <;>
      simp [hb, hw, hc, ht] at h <;> subst h <;> simp

/-- A command is refused only as R52 asks: an operation that would be accepted, and targets the block's own window. -/
theorem exec_refused {i : Instr} {s : State} {r : Refusal} (h : exec i s = .refused r) :
    i = .pack ∧ s.status.busy = false ∧ s.selfTargets = true ∧ r = .selfTargeting := by
  cases i with
  | nop => cases h
  | clear => simp only [exec, execClear] at h; split at h <;> cases h
  | pack =>
    simp only [exec, execPack] at h
    cases hb : s.status.busy <;> cases hw : s.widthLegal <;> cases hc : s.capacityEnough <;> cases ht : s.selfTargets <;>
      simp [hb, hw, hc, ht] at h
    exact ⟨rfl, rfl, rfl, h.symm⟩

/-! ### Register access -/

/-- The offsets that select CMD and IRQ_EN and that the port admits (30_encoding.md R63, 43_register_access.md R96). -/
theorem offset_of_cmd : ∀ o : BitVec 6, offsetAligned o = true → Reg.ofOffset o = .cmd → o = 0x00#6 := by decide

theorem offset_of_irqEn : ∀ o : BitVec 6, offsetAligned o = true → Reg.ofOffset o = .irqEn → o = 0x08#6 := by decide

/-- Everything a CMD write can do: nothing, or the command it decodes to. -/
theorem performCommand_next {d : Word} {s t : State} (h : performCommand d s = .next t) :
    t = s ∨ ∃ i, decode d = .ok i ∧ exec i s = .next t := by
  unfold performCommand at h
  split at h
  · exact .inr ⟨_, ‹_›, h⟩
  · cases h; exact .inl rfl

/-- Everything the write of a register other than CMD can do. -/
theorem writeReg_next {r : Reg} {d : Word} {s t : State} (h : writeReg r d s = .next t) :
    (r = .cmd ∧ performCommand d s = .next t) ∨
      (r = .irqEn ∧ t = s.writeIrqEn d) ∨
      t = s ∨
      (s.status.busy = false ∧
        t = { s with width := t.width, inAddr := t.inAddr, inCount := t.inCount, outAddr := t.outAddr, outCap := t.outCap }) := by
  cases r <;>
    simp only [writeReg, State.writeWidth, State.writeInAddr, State.writeInCount, State.writeOutAddr, State.writeOutCap,
      State.unlessBusy] at h
  case cmd => exact .inl ⟨rfl, h⟩
  case irqEn => cases h; exact .inr (.inl ⟨rfl, rfl⟩)
  case width | inAddr | inCount | outAddr | outCap =>
    split at h <;> cases h
    · exact .inr (.inr (.inl rfl))
    · exact .inr (.inr (.inr ⟨by simpa using ‹¬s.status.busy = true›, rfl⟩))
  all_goals cases h; exact .inr (.inr (.inl rfl))

/-- Everything a register transaction can do when it answers a next state (43_register_access.md). -/
theorem hostAccess_next {a : Access} {s t : State} (h : hostAccess a s = .next t) :
    (∃ o, a = .read o .word ∧ t = s.readAccess o) ∨
      (∃ o d, a = .write o .word d ∧ offsetAligned o = true ∧ writeReg (Reg.ofOffset o) d s = .next t) := by
  unfold hostAccess at h
  split at h
  · rename_i ha
    cases a with
    | read o sz =>
      cases h
      simp only [admitsAccess, Access.wf, Bool.and_eq_true, beq_iff_eq] at ha
      obtain ⟨rfl, -⟩ := ha
      exact .inl ⟨o, rfl, rfl⟩
    | write o sz d =>
      simp only [admitsAccess, Access.wf, Bool.and_eq_true, beq_iff_eq] at ha
      obtain ⟨rfl, ho⟩ := ha
      exact .inr ⟨o, d, rfl, ho, h⟩
  · cases h

theorem hostAccess_read {o : BitVec 6} (ho : offsetAligned o = true) (s : State) :
    hostAccess (.read o .word) s = .next (s.readAccess o) := by
  simp [hostAccess, admitsAccess, Access.wf, ho]

theorem hostAccess_write {o : BitVec 6} (ho : offsetAligned o = true) (d : Word) (s : State) :
    hostAccess (.write o .word d) s = writeReg (Reg.ofOffset o) d s := by
  simp [hostAccess, admitsAccess, Access.wf, ho]

/-! ### Turns and steps -/

/-- Everything a turn can do when it answers a next state: a command; a change of what the host has read and of the queue;
an IRQ_EN write; an operand write while BUSY = 0; a host memory write; the engine's turn; a reset. -/
theorem perform_next {e : Event} {s t : State} (h : perform e s = .next t) :
    (∃ i, e.commands i ∧ exec i s = .next t) ∨
      t = { s with rdata := t.rdata, mdata := t.mdata, draws := t.draws, pending := t.pending } ∨
      (∃ d, e = .access (.write 0x08#6 .word d) ∧ t = s.writeIrqEn d) ∨
      (s.status.busy = false ∧
        t = { s with width := t.width, inAddr := t.inAddr, inCount := t.inCount, outAddr := t.outAddr, outCap := t.outCap }) ∨
      (∃ a v, e = .memWrite a v ∧ t = s.hostMemWrite a v) ∨
      (e = .engine ∧ t = s.engineTurn) ∨
      (e = .reset ∧ t = s.resetStep) := by
  cases e with
  | access a =>
    obtain ⟨o, rfl, rfl⟩ | ⟨o, d, rfl, ho, hw⟩ := hostAccess_next h
    · exact .inr (.inl rfl)
    · obtain ⟨hr, hc⟩ | ⟨hr, rfl⟩ | rfl | ⟨hb, ht⟩ := writeReg_next hw
      · obtain rfl | ⟨i, hd, hx⟩ := performCommand_next hc
        · exact .inr (.inl rfl)
        · exact .inl ⟨i, ⟨d, by rw [offset_of_cmd o ho hr], hd⟩, hx⟩
      · exact .inr (.inr (.inl ⟨d, by rw [offset_of_irqEn o ho hr], rfl⟩))
      · exact .inr (.inl rfl)
      · exact .inr (.inr (.inr (.inl ⟨hb, ht⟩)))
  | poll o m v =>
    simp only [perform, pollTurn] at h
    split at h
    · rename_i u hu
      obtain ⟨o', -, rfl⟩ | ⟨o', d', he, -⟩ := hostAccess_next hu
      · split at h <;> cases h <;> exact .inr (.inl rfl)
      · cases he
    · cases h
    · cases h
  | memRead a =>
    simp only [perform, State.hostMemRead] at h
    split at h <;> cases h <;> exact .inr (.inl rfl)
  | memWrite a v => cases h; exact .inr (.inr (.inr (.inr (.inl ⟨a, v, rfl, rfl⟩))))
  | engine => cases h; exact .inr (.inr (.inr (.inr (.inr (.inl ⟨rfl, rfl⟩)))))
  | reset => cases h; exact .inr (.inr (.inr (.inr (.inr (.inr ⟨rfl, rfl⟩)))))

/-- A step is the turn of `State.turn`, taken off the queue. -/
theorem step_eq_perform (s : State) : step s = perform s.turn { s with pending := s.pending.tail } := by
  unfold step nextTurn State.turn
  cases h : s.pending with
  | nil =>
    have : { s with pending := [] } = s := by rw [← h]
    simp [this, perform]
  | cons e rest => rfl

/-! ### Runs -/

theorem runSteps_zero (s : State) : runSteps 0 s = .next s := rfl

theorem runSteps_succ_of_next {n : Nat} {s t : State} (h : step s = .next t) : runSteps (n + 1) s = runSteps n t := by
  rw [runSteps, h]

theorem runSteps_one {s t : State} (h : step s = .next t) : runSteps 1 s = .next t := runSteps_succ_of_next h

/-- `runSteps` is the host's run of this machine. -/
theorem runSteps_eq_run (n : Nat) (s : State) : runSteps n s = Host.Core.run Sys2Proof.core n s := by
  induction n generalizing s with
  | zero => rfl
  | succ n ih =>
    have e := Host.Core.run.eq_2 Sys2Proof.core s n
    have hs : Sys2Proof.core.step s = step s := rfl
    rw [hs] at e
    refine Eq.trans ?_ e.symm
    rw [runSteps]
    cases step s with
    | next t => exact ih t
    | fault r => rfl
    | refused r => rfl

/-- A run goes on from where it stands. -/
theorem runSteps_add {n m : Nat} {s t : State} (h : runSteps n s = .next t) : runSteps (n + m) s = runSteps m t := by
  induction n generalizing s with
  | zero => cases h; rw [Nat.zero_add]
  | succ n ih =>
    rw [runSteps] at h
    rw [show n + 1 + m = n + m + 1 by omega, runSteps]
    cases hs : step s with
    | next u => rw [hs] at h; exact ih h
    | fault r => cases r
    | refused r => rw [hs] at h; cases h

/-- With no turn pending, a step is the engine's enabled step. -/
theorem step_of_engineStep {s t : State} (hp : s.pending = []) (h : s.engineStep = some t) : step s = .next t := by
  simp only [step, nextTurn, hp, State.engineTurn, h, Option.getD_some]

end Sys2Proof.Machine
end

