-- ==== Sys2Proof/Tests/Slice0.lean ====
section
/-! SUPPORT. Tests. First the smoke test of WellFormed and the decoding of words written out from 30_encoding.md R64; then single
steps whose results are those of spec/95_test_vectors.md (the vector is named in each comment); then, for every statement
with hypotheses, a witness that meets them, for each of its clauses. -/

namespace Sys2Proof.Tests

open Sys2Proof.Machine

/-! ### WellFormed: each check refuses an ill-formed term (43_register_access.md R96) -/

theorem test_wf_byte_read : Access.wf (.read 0x0C#6 .byte) = false := by decide
theorem test_wf_half_write : Access.wf (.write 0x0C#6 .half 0#32) = false := by decide
theorem test_wf_burst_read : Access.wf (.read 0x0C#6 .burst) = false := by decide
theorem test_wf_misaligned_read : Access.wf (.read 0x0D#6 .word) = false := by decide
theorem test_wf_misaligned_write : Access.wf (.write 0x3E#6 .word 0#32) = false := by decide
theorem test_wf_admitted : Access.wf (.write 0x3C#6 .word 0#32) = true := by decide
theorem test_wf_every_command : Instr.nop.wf = true ∧ Instr.pack.wf = true ∧ Instr.clear.wf = true := by decide

/-! ### Decoding of words written out bit by bit: MBZ (28 bits), then OP (4 bits) -/

theorem test_decode_nop : decode 0b0000000000000000000000000000_0000#32 = .ok .nop := by decide
theorem test_decode_pack : decode 0b0000000000000000000000000000_0001#32 = .ok .pack := by decide
theorem test_decode_clear : decode 0b0000000000000000000000000000_0010#32 = .ok .clear := by decide
/-- T5. -/
theorem test_decode_reserved_op : decode 0b0000000000000000000000000000_0011#32 = .error .reservedOp := by decide
/-- T6. -/
theorem test_decode_mbz : decode 0b0000000000000000000000000001_0001#32 = .error .mbzSet := by decide
theorem test_decode_mbz_top : decode 0b1000000000000000000000000000_0001#32 = .error .mbzSet := by decide
theorem test_encode_pack : encode .pack = 0x00000001#32 := by decide

/-! ### States of 95_test_vectors.md Scenario A -/

/-- A platform that routes the window and refuses one address. -/
def exPlatform : Config.Platform :=
  { base := 0x40000000#32, selfRouted := true, denied := [⟨.read, 0x9000#32, 1⟩, ⟨.write, 0x9000#32, 1⟩] }

/-- Scenario A programmed, before PACK. -/
def exIdle : State :=
  { State.reset with
    width := 5#32, inAddr := 0x1000#32, inCount := 2#32, outAddr := 0x2000#32, outCap := 2#32
    mem := [(0x1000, 0xAE#8), (0x1001, 0x0D#8)]
    platform := exPlatform }

/-- Scenario A after its first RUN step. -/
def exRun : State :=
  { exIdle with
    status := { busy := true, done := false, err := none }
    engine := { acc := 0x70#8, bitpos := 2#3, idx := 1#32, oidx := 0#32 }
    portLog := [.read 0x1000#32] }

/-- Scenario A after its second RUN step. -/
def exFinish : State :=
  { exIdle with
    status := { busy := true, done := false, err := none }
    engine := { acc := 0x40#8, bitpos := 5#3, idx := 2#32, oidx := 1#32 }
    mem := [(0x1000, 0xAE#8), (0x1001, 0x0D#8), (0x2000, 0x73#8)]
    portLog := [.read 0x1000#32, .read 0x1001#32, .write 0x2000#32 0x73#8] }

/-- Scenario A completed. -/
def exDone : State :=
  { exIdle with status := { busy := false, done := true, err := none }, result := 2#32 }

/-- Scenario A's operands after a completion with BufferTooSmall. -/
def exFailed : State := { exIdle with status := { busy := false, done := true, err := some .bufferTooSmall } }

/-- One RUN step of 95_test_vectors.md section 2.3 from (ACC, BITPOS) with width W and symbol s. -/
def exStep (acc : Byte) (bitpos : BitVec 3) (w : Word) (sym : Byte) : State :=
  { exRun with
    width := w, inCount := 9#32, mem := [(0x1001, sym)]
    engine := { acc := acc, bitpos := bitpos, idx := 1#32, oidx := 0#32 } }

/-- ACC, BITPOS and the byte at OUT_ADDR after the engine's step; 0xEE where nothing is written. -/
def exStepped (s : State) : Option (Byte × BitVec 3 × Byte) :=
  s.engineStep.map fun t => (t.engine.acc, t.engine.bitpos, t.byteAt t.outAddr)

/-! ### NOP, PACK, CLEAR -/

/-- The outcome's STATUS word and RESULT. -/
def exStatus (o : Host.Outcome State Fault Refusal) : Option (Word × Word) :=
  match o with
  | .next t => some (t.status.word, t.result)
  | .fault _ => none
  | .refused _ => none

/-- T1. -/
theorem test_nop_keeps_status : exStatus (exec .nop exDone) = some (0x2#32, 2#32) := by decide
/-- T2. -/
theorem test_clear_acknowledges : exStatus (exec .clear exDone) = some (0x0#32, 0#32) := by decide
/-- T4. -/
theorem test_clear_busy : exStatus (exec .clear exRun) = some (0x1#32, 0#32) := by decide
/-- K11: a product wrapped to 32 bits would accept. -/
theorem test_pack_exact_product :
    exStatus (exec .pack { exDone with width := 8#32, inCount := 0xFFFFFFFF#32, outCap := 0xFFFFFFFE#32 }) =
      some (0xA#32, 0#32) := by decide
/-- K3: no truncation of WIDTH. -/
theorem test_pack_full_width : exStatus (exec .pack { exDone with width := 0x101#32 }) = some (0x6#32, 0#32) := by decide

/-! ### The engine -/

/-- S5. -/
theorem test_run_largest_carry : exStepped (exStep 0xFE#8 0#3 8#32 0xC3#8) = some (0x86#8, 0#3, 0xFF#8) := by decide
/-- S6. -/
theorem test_run_no_write : exStepped (exStep 0xE0#8 4#3 3#32 0x05#8) = some (0xF4#8, 1#3, 0xEE#8) := by decide
/-- S8. -/
theorem test_run_exact_byte : exStepped (exStep 0xE0#8 4#3 5#32 0x1F#8) = some (0x00#8, 7#3, 0xFF#8) := by decide
/-- S10. -/
theorem test_run_carry_one : exStepped (exStep 0xAA#8 0#3 2#32 0x02#8) = some (0x00#8, 6#3, 0xAB#8) := by decide
/-- Scenario A, second RUN step. -/
theorem test_run_scenario_a : exStepped exRun = some (0x40#8, 5#3, 0x73#8) := by decide
/-- Scenario A, FINISH. -/
theorem test_finish_scenario_a :
    exFinish.engineStep.map (fun t => (t.status.word, t.result, t.byteAt 0x2001#32)) = some (0x2#32, 2#32, 0x40#8) := by
  decide
/-- 20_memory.md R48: the input address wraps (95_test_vectors.md Program 4). -/
theorem test_run_wraps :
    exStepped { exStep 0x00#8 7#3 8#32 0x00#8 with inAddr := 0xFFFFFFFF#32, mem := [(0, 0x34#8)] } =
      some (0x00#8, 7#3, 0x34#8) := by decide

/-! ### Registers and reset -/

/-- The word a read turn returns. -/
def exRead (o : BitVec 6) (s : State) : Option Word :=
  match hostAccess (.read o .word) s with
  | .next t => some t.rdata
  | .fault _ => none
  | .refused _ => none

/-- G1. -/
theorem test_read_id : exRead 0x24#6 State.reset = some 0x42535001#32 := by decide
/-- G3. -/
theorem test_irq_en_reads_bit_zero : exRead 0x08#6 (State.reset.writeIrqEn 0xFFFFFFFF#32) = some 0x1#32 := by decide
/-- G9. -/
theorem test_in_count_locked : exRead 0x14#6 (exRun.writeInCount 7#32) = some 0x2#32 := by decide
/-- G2. -/
theorem test_width_stored : exRead 0x0C#6 (State.reset.writeWidth 9#32) = some 0x9#32 := by decide
/-- Z2. -/
theorem test_reset_while_busy : exRead 0x04#6 exRun.resetStep = some 0x0#32 := by decide
/-- The placed word runs as the first step after reset; PACK there raises InvalidWidth (Z3). -/
theorem test_fetch_word : exStatus (step (State.reset.withFetchWord 32 1)) = some (0x6#32, 0#32) := by decide

/-! ### Witnesses: states that meet the invariants -/

theorem exIdle_not_targets : ¬exIdle.TargetsWindow := by
  rw [← selfTargets_iff]; decide

theorem exRun_inv : exRun.Inv :=
  ⟨by decide, by decide, by decide, by decide, fun _ => by rw [← selfTargets_iff]; decide, by decide⟩

theorem exFinish_inv : exFinish.Inv :=
  ⟨by decide, by decide, by decide, by decide, fun _ => by rw [← selfTargets_iff]; decide, by decide⟩

theorem exIdle_disjoint : ∀ a, ¬(exIdle.inInput a = true ∧ exIdle.inOutput a = true) := fun a h => by
  have : exIdle.overlaps = true := overlaps_iff.2 ⟨a, h⟩
  revert this; decide

/-! ### Witnesses: for each statement with hypotheses, a state and operands that meet each clause's -/

theorem witness_DecoderFollowsTheCommandTable :
    (∃ r, decode 0x3#32 = .error r) ∧ 0x3#32 ≠ 0x0#32 ∧ 0x3#32 ≠ 0x1#32 ∧ 0x3#32 ≠ 0x2#32 :=
  ⟨⟨.reservedOp, by decide⟩, by decide⟩

theorem witness_OffsetsSelectRegisters :
    (0x00#6).toNat % 4 = 0 ∧ (0x3C#6).toNat % 4 = 0 ∧ (0x00#6).extractLsb' 2 4 = 0#4 ∧ (0x24#6).extractLsb' 2 4 = 9#4 ∧
      10 ≤ ((0x28#6).extractLsb' 2 4).toNat ∧ 10 ≤ ((0x3C#6).extractLsb' 2 4).toNat := by decide

theorem witness_StepTakesTheNextTurn :
    exRun.pending = [] ∧ State.pending { exRun with pending := [.engine, .reset] } = .engine :: [.reset] := by decide

theorem witness_StepRunsTheDecodedCommand :
    State.pending { exIdle with pending := [.access (.write 0x00#6 .word 0x1#32)] } =
        .access (.write 0x00#6 .word 0x1#32) :: [] ∧
      decode 0x1#32 = .ok .pack := by decide

theorem witness_CmdWritePerformsTheCommand : decode 0x2#32 = .ok .clear ∧ ∃ r, decode 0xFFFFFFFF#32 = .error r :=
  ⟨by decide, .mbzSet, by decide⟩

theorem witness_ReservedCommandWordIsIgnored :
    3 ≤ ((0x3#32).extractLsb' 0 4).toNat ∧ 3 ≤ ((0xF#32).extractLsb' 0 4).toNat ∧
      (0x11#32).extractLsb' 4 28 ≠ 0#28 ∧ (0x80000001#32).extractLsb' 4 28 ≠ 0#28 := by decide

theorem witness_ClearAcknowledgesACompletion : exRun.status.busy = true ∧ exDone.status.busy = false := by decide

theorem witness_PackWhileBusyHasNoEffect : exRun.status.busy = true := by decide

/-- WIDTH 0, 9 and 0x101 are illegal, 1 and 8 are legal. -/
theorem witness_PackRaisesInvalidWidthExactly :
    exIdle.status.busy = false ∧
      ¬(1 ≤ (0#32).toNat ∧ (0#32).toNat ≤ 8) ∧ ¬(1 ≤ (9#32).toNat ∧ (9#32).toNat ≤ 8) ∧
      ¬(1 ≤ (0x101#32).toNat ∧ (0x101#32).toNat ≤ 8) ∧
      (1 ≤ (1#32).toNat ∧ (1#32).toNat ≤ 8) ∧ 1 ≤ (8#32).toNat ∧ (8#32).toNat ≤ 8 := by decide

/-- K1 and K9. -/
theorem witness_PackErrorCompletesInItsStep :
    exIdle.status.busy = false ∧ ¬(1 ≤ (0#32).toNat ∧ (0#32).toNat ≤ 8) ∧
      (1 ≤ (5#32).toNat ∧ (5#32).toNat ≤ 8) ∧ (8#32).toNat < ((13#32).toNat * (5#32).toNat + 7) / 8 := by decide

theorem witness_PackAcceptsAnOperation :
    exIdle.status.busy = false ∧ (1 ≤ exIdle.width.toNat ∧ exIdle.width.toNat ≤ 8) ∧
      (exIdle.inCount.toNat * exIdle.width.toNat + 7) / 8 ≤ exIdle.outCap.toNat ∧ ¬exIdle.TargetsWindow :=
  ⟨by decide, by decide, by decide, exIdle_not_targets⟩

/-- The same operation with N = 0, the other phase of the conclusion. -/
theorem witness_PackAcceptsAnEmptyOperation : ¬State.TargetsWindow { exIdle with inCount := 0#32 } := by
  rw [← selfTargets_iff]; decide

/-- An output range whose last byte is the window's first address, and one whose first byte is the window's last. -/
theorem witness_PackThatTargetsTheWindowIsRefused :
    exIdle.status.busy = false ∧ (1 ≤ exIdle.width.toNat ∧ exIdle.width.toNat ≤ 8) ∧
      (exIdle.inCount.toNat * exIdle.width.toNat + 7) / 8 ≤ exIdle.outCap.toNat ∧
      State.TargetsWindow { exIdle with outAddr := 0x3FFFFFFF#32 } ∧
      State.TargetsWindow { exIdle with outAddr := 0x4000003F#32 } ∧
      State.TargetsWindow { exIdle with inAddr := 0x40000000#32 } ∧
      ¬State.TargetsWindow { exIdle with outAddr := 0x40000040#32 } := by
  refine ⟨by decide, by decide, by decide, ?_, ?_, ?_, ?_⟩ <;> rw [← selfTargets_iff] <;> decide

theorem witness_EveryCommandCompletes : Instr.pack = .pack ∧ ¬exIdle.TargetsWindow := ⟨rfl, exIdle_not_targets⟩

theorem witness_CommandsLeaveTheRestUnchanged :
    (∃ t, exec .nop exDone = .next t) ∧ (∃ t, exec .clear exDone = .next t) ∧
      (∃ t, exec .pack exIdle = .next t ∧ t.status.busy = true) ∧
      ∃ t, exec .pack { exIdle with width := 9#32 } = .next t ∧ t.status.busy = false :=
  ⟨⟨_, rfl⟩, ⟨_, rfl⟩, ⟨_, rfl, rfl⟩, ⟨_, rfl, rfl⟩⟩

theorem witness_RequiredSizeIsExact :
    (State.width { exIdle with width := 8#32, inCount := 0xFFFFFFFF#32 }).toNat ≤ 8 := by decide

/-- Every offset of the window, and BUSY = 1 in a state of R39. -/
theorem witness_RegisterReadReturnsItsWord :
    (∀ o ∈ [0x00#6, 0x04#6, 0x08#6, 0x0C#6, 0x10#6, 0x14#6, 0x18#6, 0x1C#6, 0x20#6, 0x24#6, 0x28#6, 0x3C#6], o.toNat % 4 = 0) ∧
      0x28 ≤ (0x28#6).toNat ∧ ¬0x28 ≤ (0x24#6).toNat ∧ exRun.StatusInv ∧ exRun.status.busy = true := by decide

theorem witness_StatusWordLayout :
    exRun.status.err = none ∧ Status.err { exRun.status with err := some .invalidWidth } = some .invalidWidth ∧
      Status.err { exRun.status with err := some .bufferTooSmall } = some .bufferTooSmall := by decide

theorem witness_OperandWritesStoreUnlessBusy :
    exIdle.status.busy = false ∧ exRun.status.busy = true ∧ 0x1C#6 ∈ [0x0C#6, 0x10#6, 0x14#6, 0x18#6, 0x1C#6] := by decide

theorem witness_ReadOnlyAndReservedWritesAreIgnored :
    (0x04#6).toNat % 4 = 0 ∧ (0x20#6).toNat % 4 = 0 ∧ (0x24#6).toNat % 4 = 0 ∧
      (0x28#6).toNat % 4 = 0 ∧ 0x28 ≤ (0x28#6).toNat ∧ (0x3C#6).toNat % 4 = 0 ∧ 0x28 ≤ (0x3C#6).toNat := by decide

theorem witness_PollReadsUntilTheValueAppears :
    State.pending { exRun with pending := [.poll (Reg.offset .status) 0x2#32 0x2#32] } =
      .poll (Reg.offset .status) 0x2#32 0x2#32 :: [] := by decide

theorem witness_PutBitPlacesOneBit :
    exRun.engine.bitpos ≠ 0#3 ∧
      Engine.bitpos { exRun.engine with bitpos := 0#3 } = 0#3 ∧
      portAdmits exRun.platform (exRun.outAddr + exRun.engine.oidx) .write = true := by decide

/-- A step that writes a byte (t = 10) and, with W = 2, one that does not (t = 7). -/
theorem witness_RunStepHasTheClosedForm :
    exRun.status.busy = true ∧ exRun.engine.idx.toNat < exRun.inCount.toNat ∧ 1 ≤ exRun.width.toNat ∧
      exRun.width.toNat ≤ 8 ∧ (∀ j < exRun.engine.bitpos.toNat + 1, exRun.engine.acc.getLsbD j = false) ∧
      portAdmits exRun.platform (exRun.inAddr + exRun.engine.idx) .read = true ∧
      portAdmits exRun.platform (exRun.outAddr + exRun.engine.oidx) .write = true ∧
      8 ≤ 7 - exRun.engine.bitpos.toNat + exRun.width.toNat ∧ ¬8 ≤ 7 - exRun.engine.bitpos.toNat + (2#32).toNat := by decide

/-- The read, the write of a RUN step, and the write of FINISH refused. -/
theorem witness_EngineIsStuckWhereNotAdmitted :
    exRun.status.busy = true ∧
      (exRun.engine.idx.toNat < exRun.inCount.toNat ∧
        portAdmits exRun.platform (0x8FFF#32 + exRun.engine.idx) .read = false) ∧
      (exRun.engine.bitpos.toNat < exRun.width.toNat ∧ portAdmits exRun.platform (0x9000#32 + exRun.engine.oidx) .write = false) ∧
      (exFinish.status.busy = true ∧ exFinish.engine.idx = exFinish.inCount ∧ exFinish.engine.bitpos ≠ 7#3 ∧
        portAdmits exFinish.platform (0x8FFF#32 + exFinish.engine.oidx) .write = false) := by decide

/-- A last byte partly filled; with BITPOS = 7 the other case. -/
theorem witness_FinishStepCompletes :
    exFinish.Inv ∧ exFinish.status.busy = true ∧ exFinish.engine.idx = exFinish.inCount ∧ exFinish.MemInv ∧
      exFinish.engine.bitpos ≠ 7#3 ∧ portAdmits exFinish.platform (exFinish.outAddr + exFinish.engine.oidx) .write = true ∧
      exFinish.intruded = false ∧ (∀ a, ¬(exFinish.inInput a = true ∧ exFinish.inOutput a = true)) ∧
      Engine.bitpos { exFinish.engine with bitpos := 7#3 } = 7#3 :=
  ⟨exFinish_inv, by decide, by decide, by decide, by decide, by decide, by decide, exIdle_disjoint, by decide⟩

theorem witness_PhaseFollowsTheStatus :
    exRun.EngineInv ∧ exRun.phase = some .run ∧ exFinish.phase = some .finish ∧ exIdle.phase = some .idle ∧
      exIdle.pending = [] := by decide

/-- For the six invariants: a state that meets them all, in mid operation, whose step answers a next state. -/
theorem witness_StepKeepsTheInvariants : exRun.Inv ∧ (∃ t, step exRun = .next t) ∧ exFinish.Inv ∧ ∃ t, step exFinish = .next t :=
  ⟨exRun_inv, ⟨_, rfl⟩, exFinish_inv, ⟨_, rfl⟩⟩

theorem witness_ResetMeetsEveryInvariant : Memory.wf [(0x1000, 0xAE#8), (0xFFFFFFFF, 0x00#8)] = true := by decide

theorem witness_StepKeepsThePlatform : ∃ t, step exRun = .next t := ⟨_, rfl⟩

/-- The turn of a command. -/
def exCommand (s : State) (d : Word) : State := { s with pending := [.access (.write 0x00#6 .word d)] }

/-- The turn of a reset. -/
def exReset (s : State) : State := { s with pending := [.reset] }

/-- The turn of an IRQ_EN write. -/
def exIrqEn (s : State) (d : Word) : State := { s with pending := [.access (.write 0x08#6 .word d)] }

theorem witness_BusyChangesOnlyAtItsSteps :
    (∃ t, step (exCommand exIdle 0x1#32) = .next t ∧ exIdle.status.busy = false ∧ t.status.busy = true) ∧
      (∃ t, step exFinish = .next t ∧ exFinish.status.busy = true ∧ t.status.busy = false) ∧
      ∃ t, step (exReset exRun) = .next t ∧ exRun.status.busy = true ∧ t.status.busy = false :=
  ⟨⟨_, rfl, rfl, rfl⟩, ⟨_, rfl, rfl, rfl⟩, ⟨_, rfl, rfl, rfl⟩⟩

/-- DONE, then ERR going back to NONE at PACK, CLEAR and reset, and RESULT at FINISH and CLEAR. -/
theorem witness_DoneChangesOnlyAtItsSteps :
    (∃ t, step (exCommand { exIdle with width := 9#32 } 0x1#32) = .next t ∧ t.status.done = true ∧ t.status.err ≠ none) ∧
      (∃ t, step exFinish = .next t ∧ exFinish.status.done = false ∧ t.status.done = true ∧
        exFinish.result ≠ t.result ∧ t.result ≠ 0#32) ∧
      (∃ t, step (exCommand exDone 0x2#32) = .next t ∧ exDone.status.done = true ∧ t.status.done = false ∧
        t.result ≠ exDone.result) ∧
      (∃ t, step (exCommand exFailed 0x1#32) = .next t ∧ exFailed.status.err ≠ none ∧ t.status.err = none) ∧
      (∃ t, step (exCommand exFailed 0x2#32) = .next t ∧ t.status.err = none) ∧
      ∃ t, step (exReset exFailed) = .next t ∧ t.status.err = none :=
  ⟨⟨_, rfl, rfl, by decide⟩, ⟨_, rfl, rfl, rfl, by decide, by decide⟩, ⟨_, rfl, rfl, rfl, by decide⟩,
    ⟨_, rfl, by decide, rfl⟩, ⟨_, rfl, rfl⟩, ⟨_, rfl, rfl⟩⟩

/-- G11 and T2. -/
theorem witness_IrqChangesOnlyAtItsCauses :
    (∃ t, step (exIrqEn exDone 0x1#32) = .next t ∧ exDone.irq = false ∧ t.irq = true) ∧
      (∃ t, step { exFinish with ie := true } = .next t ∧ t.irq = true) ∧
      (∃ t, step (exIrqEn { exDone with ie := true } 0x0#32) = .next t ∧ t.irq = false) ∧
      ∃ t, step (exCommand { exDone with ie := true } 0x2#32) = .next t ∧
        State.irq { exDone with ie := true } = true ∧ t.irq = false :=
  ⟨⟨_, rfl, rfl, rfl⟩, ⟨_, rfl, rfl⟩, ⟨_, rfl, rfl⟩, ⟨_, rfl, rfl, rfl⟩⟩

theorem witness_HostCannotDisturbAnOperation :
    exRun.status.busy = true ∧ (exCommand exRun 0x2#32).turn ≠ .engine ∧ (exCommand exRun 0x2#32).turn ≠ .reset ∧
      ∃ t, step (exCommand exRun 0x2#32) = .next t :=
  ⟨by decide, by decide, by decide, _, rfl⟩

/-- A byte past the output range while BUSY = 1, and any byte after the operation. -/
theorem witness_NothingWritesOutsideTheOutputRange :
    exRun.Inv ∧ (∃ t, step exRun = .next t) ∧ (∀ v, exRun.turn ≠ .memWrite 0x2002#32 v) ∧
      exRun.inOutput 0x2002#32 = false ∧ exRun.inOutput 0x2001#32 = true ∧ exDone.status.busy = false :=
  ⟨exRun_inv, ⟨_, rfl⟩, fun v h => (nomatch (show Event.engine = Event.memWrite 0x2002#32 v from h)), by decide⟩

/-- In RUN and in FINISH. -/
theorem witness_SequenceDoesNotDependOnData :
    (∃ t, exRun.engineStep = some t) ∧ exRun.phase = some .run ∧ (∃ t, exFinish.engineStep = some t) ∧
      exFinish.phase = some .finish :=
  ⟨⟨_, rfl⟩, by decide, ⟨_, rfl⟩, by decide⟩

/-- In RUN, with another memory that holds the same symbol; in FINISH, with one that differs at IN_ADDR + IDX. -/
theorem witness_EngineDependsOnlyOnItsSymbol :
    (∃ t, exRun.engineStep = some t) ∧ exRun.phase = some .run ∧
      State.byteAt { exRun with mem := [(0x1001, 0x0D#8)] } (exRun.inAddr + exRun.engine.idx) =
        exRun.byteAt (exRun.inAddr + exRun.engine.idx) ∧
      (∃ t, exFinish.engineStep = some t) ∧ exFinish.phase = some .finish ∧
      State.byteAt { exFinish with mem := [(0x1002, 0x11#8)] } (exFinish.inAddr + exFinish.engine.idx) ≠
        exFinish.byteAt (exFinish.inAddr + exFinish.engine.idx) :=
  ⟨⟨_, rfl⟩, by decide, by decide, ⟨_, rfl⟩, by decide, by decide⟩

/-- The first and the last byte of the output range, and the first past it. -/
theorem witness_HostMemoryReadReturnsTheByteOrAny :
    (exRun.status.busy = true ∧ exRun.inOutput 0x2000#32 = true ∧ exRun.inOutput 0x2001#32 = true) ∧
      ¬(exRun.status.busy = true ∧ exRun.inOutput 0x2002#32 = true) := by decide

theorem witness_HostMemoryWriteStoresItsByte :
    exRun.MemInv ∧ exRun.inInput 0x1001#32 = true ∧ exRun.inOutput 0x1002#32 = false := by decide

theorem witness_ResetStepClearsTheBlock :
    exRun.MemInv ∧ exRun.width.toNat ≤ 8 ∧ exRun.status.busy = true ∧ exRun.inOutput 0x2000#32 = true ∧
      exRun.inOutput 0x2002#32 = false ∧ exIdle.MemInv ∧ exIdle.status.busy = false := by decide

theorem witness_PackStraightAfterResetFails :
    State.pending { exRun with pending := [.reset, .access (.write 0x00#6 .word 0x00000001#32)] } =
      .reset :: .access (.write 0x00#6 .word 0x00000001#32) :: [] := by decide

/-- Scenario A, for `OperationPacksTheStream` and `UnpackingRecoversTheSymbols`. -/
theorem witness_OperationPacksTheStream :
    exIdle.status.busy = false ∧
      (exCommand exIdle 0x00000001#32).pending = [.access (.write 0x00#6 .word 0x00000001#32)] ∧ exIdle.MemInv ∧
      1 ≤ exIdle.width.toNat ∧ exIdle.width.toNat ≤ 8 ∧ exIdle.req ≤ exIdle.outCap.toNat ∧ exIdle.AllAdmitted ∧
      ¬(exCommand exIdle 0x00000001#32).TargetsWindow ∧
      ∀ a, ¬((exCommand exIdle 0x00000001#32).inInput a = true ∧ (exCommand exIdle 0x00000001#32).inOutput a = true) :=
  ⟨by decide, by decide, by decide, by decide, by decide, by decide, by decide, exIdle_not_targets, exIdle_disjoint⟩

/-- Scenario A's buffers with W = 8. -/
def exWidthEight : State := { exIdle with width := 8#32, pending := [.access (.write 0x00#6 .word 0x00000001#32)] }

theorem witness_WidthEightCopiesTheInput :
    exWidthEight.status.busy = false ∧ exWidthEight.pending = [.access (.write 0x00#6 .word 0x00000001#32)] ∧
      exWidthEight.MemInv ∧ exWidthEight.width = 8#32 ∧ exWidthEight.inCount.toNat ≤ exWidthEight.outCap.toNat ∧
      exWidthEight.AllAdmitted ∧ ¬exWidthEight.TargetsWindow ∧
      ∀ a, ¬(exWidthEight.inInput a = true ∧ exWidthEight.inOutput a = true) := by
  refine ⟨by decide, by decide, by decide, by decide, by decide, by decide, ?_, fun a h => ?_⟩
  · rw [← selfTargets_iff]; decide
  · have : exWidthEight.overlaps = true := overlaps_iff.2 ⟨a, h⟩
    revert this; decide

/-- Scenario D, with capacity 0. -/
theorem witness_EmptyInputSucceeds :
    exIdle.status.busy = false ∧
      (exCommand { exIdle with inCount := 0#32, outCap := 0#32 } 0x00000001#32).pending =
        [.access (.write 0x00#6 .word 0x00000001#32)] ∧
      1 ≤ exIdle.width.toNat ∧ exIdle.width.toNat ≤ 8 := by decide

theorem witness_OperationCompletesOnTime :
    exRun.Inv ∧ exRun.status.busy = true ∧ exRun.pending = [] ∧ exRun.AllAdmitted :=
  ⟨exRun_inv, by decide, by decide, by decide⟩

/-- An operation whose output range is its input range, just accepted. -/
def exOverlap : State :=
  { exIdle with
    outAddr := 0x1001#32
    status := { busy := true, done := false, err := none }
    engine := { acc := 0x00#8, bitpos := 7#3, idx := 0#32, oidx := 0#32 } }

theorem witness_OverlapLeavesOnlyTheOutputOpen :
    exOverlap.Inv ∧ exOverlap.status.busy = true ∧ exOverlap.pending = [] ∧ exOverlap.AllAdmitted ∧
      (∃ a, exOverlap.inInput a = true ∧ exOverlap.inOutput a = true) ∧
      State.Inv { exRun with intruded := true } ∧ State.intruded { exRun with intruded := true } = true := by
  refine ⟨⟨by decide, by decide, by decide, by decide, fun _ => ?_, by decide⟩, by decide, by decide, by decide,
    ⟨0x1001#32, by decide⟩, ⟨by decide, by decide, by decide, by decide, fun _ => ?_, by decide⟩, rfl⟩ <;>
    rw [← selfTargets_iff] <;> decide

theorem witness_EachByteIsAccessedExactlyOnce :
    exFinish.Inv ∧ exFinish.phase = some .finish ∧ (∃ t, exFinish.engineStep = some t) ∧
      ∃ t, exec .pack { exIdle with width := 9#32 } = .next t ∧ t.status.err ≠ none :=
  ⟨exFinish_inv, by decide, ⟨_, rfl⟩, ⟨_, rfl, by decide⟩⟩

/-- Both cases of the output: not open, and open by an overlap or by a host write. -/
theorem witness_FinishLeavesTheOutputFunction :
    exFinish.Inv ∧ exFinish.phase = some .finish ∧ exFinish.engine.bitpos ≠ 7#3 ∧
      portAdmits exFinish.platform (exFinish.outAddr + exFinish.engine.oidx) .write = true ∧
      exFinish.intruded = false ∧ (∀ a, ¬(exFinish.inInput a = true ∧ exFinish.inOutput a = true)) ∧
      State.Inv { exFinish with intruded := true } ∧ exFinish.inOutput 0x2001#32 = true := by
  refine ⟨exFinish_inv, by decide, by decide, by decide, by decide, exIdle_disjoint,
    ⟨by decide, by decide, by decide, by decide, fun _ => ?_, by decide⟩, by decide⟩
  rw [← selfTargets_iff]
  decide

end Sys2Proof.Tests
end

section
/-! PROOFS. The command decoder (30_encoding.md R64 to R66): a word is its two fields, so decoding a command is equality with
the command's word, and a word with a reserved field is rejected. -/

namespace Sys2Proof

/-! ### The fields of a command word -/

/-- A word is {MBZ, OP} (30_encoding.md R64). -/
theorem mbzField_append_opField (w : Word) : mbzField w ++ opField w = w := by
  apply BitVec.eq_of_getLsbD_eq
  intro k _
  simp only [mbzField, opField, BitVec.getLsbD_append, BitVec.getLsbD_extractLsb']
  by_cases hk : k < 4
  · simp [hk]
  · simp [hk, show 4 + (k - 4) = k by omega, show k - 4 < 28 by omega]

theorem Laws.MbzZero.all (i : Instr) : Laws.MbzZero.Statement i := by
  cases i with
  | nop => exact Laws.MbzZero.nop
  | pack => exact Laws.MbzZero.pack
  | clear => exact Laws.MbzZero.clear

theorem eq_encode_iff_fields {w : Word} {i : Instr} : w = encode i ↔ mbzField w = 0#28 ∧ opField w = i.op := by
  constructor
  · rintro rfl
    obtain ⟨hmbz, hop, -⟩ := Laws.MbzZero.all i
    exact ⟨hmbz, hop⟩
  · rintro ⟨hmbz, hop⟩
    rw [encode, ← hmbz, ← hop, mbzField_append_opField]

/-! ### The decoder, once for each kind of answer -/

theorem decode_encode (i : Instr) : decode (encode i) = .ok i := by
  cases i <;> rfl

theorem decode_eq_ok_iff {w : Word} {i : Instr} : decode w = .ok i ↔ w = encode i := by
  refine ⟨fun h => eq_encode_iff_fields.2 ?_, fun h => h ▸ decode_encode i⟩
  unfold decode at h
  split_ifs at h with hmbz hnop hpack hclear <;> cases h
  · exact ⟨not_not.1 hmbz, hnop⟩
  · exact ⟨not_not.1 hmbz, hpack⟩
  · exact ⟨not_not.1 hmbz, hclear⟩

/-- The decoder is total: it rejects exactly the words of no command. -/
theorem decode_eq_error_iff {w : Word} : (∃ r, decode w = .error r) ↔ ∀ i, w ≠ encode i := by
  simp only [ne_eq, ← decode_eq_ok_iff]
  cases decode w with
  | ok j => simp
  | error r => simp

/-- 30_encoding.md R66: a word with OP in 3 to 15, or with any MBZ bit set, is reserved. -/
theorem decode_error_of_reserved_field {w : Word} (h : 3 ≤ (opField w).toNat ∨ mbzField w ≠ 0#28) :
    ∃ r, decode w = .error r := by
  refine decode_eq_error_iff.2 fun i hi => ?_
  obtain ⟨hmbz, hop⟩ := eq_encode_iff_fields.1 hi
  have hlt : i.op.toNat < 3 := by cases i <;> decide
  rcases h with hge | hne
  · rw [hop] at hge
    omega
  · exact hne hmbz

/-! ### The match and mask pairs -/

theorem mem_opcodeTable_iff {r : OpcodeRow} : r ∈ opcodeTable ↔ r = ⟨r.instr, encode r.instr, 0xFFFFFFFF#32⟩ := by
  obtain ⟨i, m, k⟩ := r
  cases i <;> simp [opcodeTable, encode, Instr.op]

/-- 30_encoding.md R65: matching a command's row under the mask 0xFFFF_FFFF is equality with the command's word. -/
theorem matches_row_iff {w : Word} {i : Instr} :
    (∃ r ∈ opcodeTable, r.instr = i ∧ r.mask = 0xFFFFFFFF#32 ∧ w &&& r.mask = r.matchBits) ↔ w = encode i := by
  have hmask : w &&& 0xFFFFFFFF#32 = w := BitVec.and_allOnes
  constructor
  · rintro ⟨r, hr, rfl, hm, hw⟩
    rw [hm, hmask, mem_opcodeTable_iff.1 hr] at hw
    exact hw
  · intro hw
    exact ⟨⟨i, encode i, 0xFFFFFFFF#32⟩, mem_opcodeTable_iff.2 rfl, rfl, rfl, hmask.trans hw⟩

/-! ### The obligations -/

/-- Settles O1: the decoder answers a command exactly on that command's word. -/
theorem decoderFollowsTheCommandTable : Obligations.DecoderFollowsTheCommandTable := by
  intro w
  refine ⟨decode_eq_ok_iff, decode_eq_ok_iff, decode_eq_ok_iff, decode_eq_error_iff.trans ⟨?_, ?_⟩,
    fun i => decode_eq_ok_iff.trans matches_row_iff.symm⟩
  · exact fun h => ⟨h .nop, h .pack, h .clear⟩
  · rintro ⟨hnop, hpack, hclear⟩ i
    cases i with
    | nop => exact hnop
    | pack => exact hpack
    | clear => exact hclear

end Sys2Proof

namespace Sys2Proof.Machine

/-- The CMD write of a word performs it as a command (43_register_access.md R105). -/
theorem hostAccess_write_cmd (d : Word) (s : State) : hostAccess (.write 0x00#6 .word d) s = performCommand d s :=
  hostAccess_write rfl d s

theorem performCommand_of_decode_error {d : Word} {r : Reject} (h : decode d = .error r) (s : State) :
    performCommand d s = .next s := by
  simp only [performCommand, h]

/-- Settles O8: such a word decodes to an error, on which the CMD write keeps the state. -/
theorem reservedCommandWordIsIgnored : Obligations.ReservedCommandWordIsIgnored := by
  intro s d h
  obtain ⟨r, hr⟩ := decode_error_of_reserved_field h
  rw [hostAccess_write_cmd, performCommand_of_decode_error hr]

end Sys2Proof.Machine
end

section
/-! PROOFS. PACK (40_pack.md): what it answers, once for each outcome of its checks, and the required size of R72. -/

namespace Sys2Proof.Machine

/-! ### PACK, once for each outcome -/

/-- 40_pack.md R75. -/
theorem exec_pack_of_busy {s : State} (hb : s.status.busy = true) : exec .pack s = .next s := by
  simp [exec, execPack, hb]

/-- 40_pack.md R71: the width is checked first, so nothing is asked of the capacity. -/
theorem exec_pack_of_illegal_width {s : State} (hb : s.status.busy = false) (hw : ¬s.widthLegal = true) :
    exec .pack s = .next (s.acknowledge.raiseError .invalidWidth) := by
  simp [exec, execPack, hb, hw]

/-- 40_pack.md R73. -/
theorem exec_pack_of_small_capacity {s : State} (hb : s.status.busy = false) (hw : s.widthLegal = true)
    (hc : ¬s.capacityEnough = true) : exec .pack s = .next (s.acknowledge.raiseError .bufferTooSmall) := by
  simp [exec, execPack, hb, hw, hc]

/-- 20_memory.md R52. -/
theorem exec_pack_of_selfTargets {s : State} (hb : s.status.busy = false) (hw : s.widthLegal = true)
    (hc : s.capacityEnough = true) (ht : s.selfTargets = true) : exec .pack s = .refused .selfTargeting := by
  simp [exec, execPack, hb, hw, hc, ht]

/-- 40_pack.md R74. -/
theorem exec_pack_of_accepted {s : State} (hb : s.status.busy = false) (hw : s.widthLegal = true)
    (hc : s.capacityEnough = true) (ht : ¬s.selfTargets = true) : exec .pack s = .next s.acknowledge.accept := by
  simp [exec, execPack, hb, hw, hc, ht]

/-- 60_exceptions.md R112: past the width check the only error left is BufferTooSmall. -/
theorem exec_pack_err_of_legal_width {s t : State} (hb : s.status.busy = false) (hw : s.widthLegal = true)
    (h : exec .pack s = .next t) : t.status.err = none ∨ t.status.err = some .bufferTooSmall := by
  by_cases hc : s.capacityEnough = true
  · by_cases ht : s.selfTargets = true
    · rw [exec_pack_of_selfTargets hb hw hc ht] at h
      cases h
    · rw [exec_pack_of_accepted hb hw hc ht] at h
      cases h
      exact .inl rfl
  · rw [exec_pack_of_small_capacity hb hw hc] at h
    cases h
    exact .inr rfl

/-! ### The two completions as records -/

/-- The error completion of an idle block (60_exceptions.md R111): STATUS and RESULT, and nothing else. -/
theorem acknowledge_raiseError_of_idle {s : State} (hb : s.status.busy = false) (e : ErrorKind) :
    s.acknowledge.raiseError e =
      { s with status := { busy := false, done := true, err := some e }, result := 0#32 } := by
  simp [State.acknowledge, State.raiseError, hb]

/-- 10_state.md R37: an operation just accepted has its engine at symbol 0, so the phase is decided by IN_COUNT. -/
theorem accept_phase (s : State) : s.accept.phase = if s.inCount = 0#32 then some .finish else some .run := by
  split
  case isTrue h0 => exact phase_eq_finish.2 ⟨rfl, h0.symm⟩
  case isFalse h0 => exact phase_eq_run.2 ⟨rfl, Nat.pos_of_ne_zero (fun hz => h0 (BitVec.eq_of_toNat_eq hz))⟩

/-! ### The CMD write of a command's word -/

/-- 43_register_access.md R105: writing a command's own word to CMD performs that command. -/
theorem hostAccess_write_encode (i : Instr) (s : State) :
    hostAccess (.write 0x00#6 .word (encode i)) s = exec i s := by
  rw [hostAccess_write_cmd, performCommand, decode_encode]

/-! ### The required size -/

/-- 40_pack.md R72. -/
theorem req_eq (s : State) : s.req = (s.inCount.toNat * s.width.toNat + 7) / 8 := rfl

/-! ### The obligations -/

/-- Settles O12: the width check decides alone, before the capacity, whether PACK raises InvalidWidth. -/
theorem packRaisesInvalidWidthExactly : Obligations.PackRaisesInvalidWidthExactly := by
  intro s hb
  refine ⟨fun hw => ?_, fun hw t h => ?_⟩
  · rw [exec_pack_of_illegal_width hb (mt widthLegal_iff.1 hw), acknowledge_raiseError_of_idle hb]
  · obtain he | he := exec_pack_err_of_legal_width hb (widthLegal_iff.2 hw) h <;> simp [he]

/-- Settles O14: with every check passed PACK answers the acknowledged and accepted state. -/
theorem packAcceptsAnOperation : Obligations.PackAcceptsAnOperation := by
  intro s hb hw hc ht
  exact ⟨s.acknowledge.accept,
    exec_pack_of_accepted hb (widthLegal_iff.2 hw) (capacityEnough_iff.2 hc) (mt selfTargets_iff.1 ht),
    rfl, accept_phase s.acknowledge⟩

/-- Settles O18: a legal width makes N * W at most 8 * N, and N is a 32-bit number. -/
theorem requiredSizeIsExact : Obligations.RequiredSizeIsExact := by
  intro s
  refine ⟨req_eq s, fun hw => ?_⟩
  have hN : s.inCount.toNat < 2 ^ 32 := s.inCount.isLt
  have hbits : s.inCount.toNat * s.width.toNat ≤ 8 * s.inCount.toNat := bits_le hw
  have hreq : s.req ≤ s.inCount.toNat := req_le_count hw
  exact ⟨by omega, hreq, by omega⟩

/-- Settles O11: the CMD write of 0x0000_0001 is the command PACK, which keeps the state while BUSY = 1. -/
theorem packWhileBusyHasNoEffect : Obligations.PackWhileBusyHasNoEffect := by
  intro s hb
  have hpack : exec .pack s = .next s := exec_pack_of_busy hb
  exact ⟨hpack, (hostAccess_write_encode .pack s).trans hpack⟩

end Sys2Proof.Machine
end

section
/-! PROOFS. The datapath (41_datapath.md): symbol extraction (R80), PutBit (R81) and the FINISH step (R84). -/

namespace Sys2Proof.Machine

/-! ### Symbols and the cursor's bit as numbers -/

/-- 41_datapath.md R80: v = s & mask(W) on numbers, also for W > 8. -/
theorem toNat_maskSymbol (w : Nat) (sym : Byte) : (maskSymbol w sym).toNat = sym.toNat &&& (2 ^ w - 1) := by
  apply Nat.eq_of_testBit_eq
  intro i
  rw [BitVec.testBit_toNat, getLsbD_maskSymbol, Nat.testBit_and, Nat.testBit_two_pow_sub_one, BitVec.testBit_toNat,
    Bool.and_comm]

/-- 41_datapath.md R81: ACC | (b << BITPOS) where ACC is 0 at the cursor. -/
theorem toNat_setBit_of_clear {acc : Byte} {p : BitVec 3} (h : acc.getLsbD p.toNat = false) (b : Bool) :
    (setBit acc p b).toNat = acc.toNat ||| b.toNat <<< p.toNat := by
  have hp := p.isLt
  apply Nat.eq_of_testBit_eq
  intro j
  rw [Nat.testBit_or, Nat.testBit_shiftLeft, Nat.testBit_bool_toNat, BitVec.testBit_toNat, BitVec.testBit_toNat]
  by_cases hj : j < 8
  · rw [getLsbD_setBit acc p b j hj]
    rcases Nat.lt_trichotomy j p.toNat with hlt | rfl | hgt
    · simp [hlt, Nat.ne_of_lt hlt]
    · simp [h]
    · simp [Nat.ne_of_gt hgt, Nat.sub_ne_zero_of_lt hgt]
  · have hpast : j - p.toNat ≠ 0 := by omega
    simp [BitVec.getLsbD_of_ge _ j (not_lt.1 hj), hpast]

/-! ### PutBit and the flush, once for each side of the byte boundary -/

/-- PutBit that fills its byte (41_datapath.md R81). -/
theorem putBit_of_last {s : State} (h0 : s.engine.bitpos = 0#3)
    (ha : portAdmits s.platform (s.outAddr + s.engine.oidx) .write = true) (b : Bool) :
    s.putBit b = some { s.setByte (s.outAddr + s.engine.oidx) (setBit s.engine.acc s.engine.bitpos b) with
      portLog := s.portLog ++ [.write (s.outAddr + s.engine.oidx) (setBit s.engine.acc s.engine.bitpos b)]
      engine := { acc := 0x00#8, bitpos := 7#3, idx := s.engine.idx, oidx := s.engine.oidx + 1#32 } } := by
  rw [State.putBit, if_pos h0, portWrite_of_admit ha]
  rfl

/-- PutBit inside its byte (41_datapath.md R81). -/
theorem putBit_of_not_last {s : State} (h0 : s.engine.bitpos ≠ 0#3) (b : Bool) :
    s.putBit b = some { s with engine :=
      { s.engine with acc := setBit s.engine.acc s.engine.bitpos b, bitpos := s.engine.bitpos - 1#3 } } := by
  rw [State.putBit, if_neg h0]

/-- The flush has an effect unless it must write where the platform has not admitted it (20_memory.md R42). -/
theorem flush_isSome {s : State}
    (h : s.engine.bitpos ≠ 7#3 → portAdmits s.platform (s.outAddr + s.engine.oidx) .write = true) :
    ∃ u, s.flush = some u := by
  unfold State.flush
  split
  case isTrue => exact ⟨s, rfl⟩
  case isFalse h7 =>
    rw [portWrite_of_admit (h h7)]
    exact ⟨_, rfl⟩

theorem flush_frame {s u : State} (h : s.flush = some u) :
    u = { s with mem := u.mem, portLog := u.portLog, engine := u.engine } := by
  obtain ⟨-, rfl⟩ | ⟨-, -, rfl⟩ := flush_some h <;> rfl

/-- 41_datapath.md R84: OIDX counts the flushed byte. -/
theorem flush_oidx {s u : State} (h : s.flush = some u) :
    u.engine.oidx = if s.engine.bitpos ≠ 7#3 then s.engine.oidx + 1#32 else s.engine.oidx := by
  obtain ⟨h7, rfl⟩ | ⟨h7, -, rfl⟩ := flush_some h
  · rw [if_neg (not_not.2 h7)]
  · rw [if_pos h7]

/-- 41_datapath.md R84: the flush writes ACC under the cursor, and only where the last byte is partly filled. -/
theorem flush_byteAt {s u : State} (hm : s.MemInv) (h : s.flush = some u) (a : Word) :
    u.byteAt a =
      if s.engine.bitpos ≠ 7#3 ∧ a = s.outAddr + s.engine.oidx then s.engine.acc else s.byteAt a := by
  obtain ⟨h7, rfl⟩ | ⟨h7, -, rfl⟩ := flush_some h
  · rw [if_neg fun hw => hw.1 h7]
  · refine (byteAt_setByte hm _ _ a).trans ?_
    simp [h7, eq_comm]

/-! ### Completion while the output is not open -/

theorem outputOpen_eq_false {s : State} (hi : s.intruded = false)
    (hd : ∀ a, ¬(s.inInput a = true ∧ s.inOutput a = true)) : s.outputOpen = false := by
  rw [Bool.eq_false_iff, ne_eq, outputOpen_iff]
  rintro (⟨a, ha⟩ | ht)
  · exact hd a ha
  · exact Bool.noConfusion (hi.symm.trans ht)

theorem flush_outputOpen {s u : State} (h : s.flush = some u) : u.outputOpen = s.outputOpen := by
  rw [flush_frame h]
  rfl

/-- 20_memory.md R56, R57: completion itself moves no byte of an output that is not open. -/
theorem byteAt_complete_of_closed {s : State} (h : s.outputOpen = false) (a : Word) :
    s.complete.byteAt a = s.byteAt a := by
  simp [State.byteAt, h]

/-! ### The obligations -/

/-- Settles O26: the mask is bit by bit, and no byte has a bit above 7. -/
theorem symbolKeepsItsLowBits : Obligations.SymbolKeepsItsLowBits := by
  intro w sym
  refine ⟨?_, getLsbD_maskSymbol w sym, BitVec.and_allOnes⟩
  rw [toNat_maskSymbol, Nat.one_shiftLeft]

/-- Settles O27: the byte is ACC with the cursor's bit set, on both sides of the byte boundary. -/
theorem putBitPlacesOneBit : Obligations.PutBitPlacesOneBit := by
  intro s b
  refine ⟨setBit s.engine.acc s.engine.bitpos b, getLsbD_setBit _ _ b, fun hlow => ?_, fun h0 ha => ?_, fun h0 => ?_⟩
  · exact toNat_setBit_of_clear (hlow _ (Nat.lt_succ_self _)) b
  · exact ⟨_, putBit_of_last h0 ha b⟩
  · exact putBit_of_not_last h0 b

/-- Settles O30: FINISH is the flush followed by the completion; the flush brings OIDX to its final value and touches one
byte at most, and the completion publishes OIDX. -/
theorem finishStepCompletes : Obligations.FinishStepCompletes := by
  intro s hb hi hm hadm
  obtain ⟨u, hu⟩ := flush_isSome hadm
  have hframe := flush_frame hu
  have hstep : s.engineStep = some u.complete := by
    rw [engineStep_finish hb hi, State.finishStep, hu, Option.map_some]
  refine ⟨u.complete, hstep, rfl, flush_oidx hu, fun hinv => ?_, ?_, ?_, fun hint hdis a => ?_⟩
  · obtain ⟨-, -, hlegal, -⟩ := hinv.status
    obtain ⟨-, hw, -⟩ := hlegal hb
    obtain ⟨-, hreq, -⟩ := flush_spec hb hi hw hinv.engine hm hu
    exact hreq
  · rw [hframe]
    rfl
  · rw [hframe]
    exact ⟨rfl, rfl, rfl, rfl, rfl, rfl⟩
  · have hclosed : u.outputOpen = false := (flush_outputOpen hu).trans (outputOpen_eq_false hint hdis)
    rw [byteAt_complete_of_closed hclosed, flush_byteAt hm hu]

end Sys2Proof.Machine
end

section
/-! PROOFS. NOP and CLEAR (42_control.md R93 to R95): what each answers, and the state a CLEAR leaves. -/

namespace Sys2Proof.Machine

/-! ### NOP and CLEAR, once for each outcome -/

/-- 42_control.md R93: no case on the phase. -/
theorem exec_nop (s : State) : exec .nop s = .next s := rfl

/-- 42_control.md R95. -/
theorem exec_clear_of_busy {s : State} (hb : s.status.busy = true) : exec .clear s = .next s := by
  simp [exec, execClear, hb]

/-- 42_control.md R94. -/
theorem exec_clear_of_idle {s : State} (hb : s.status.busy = false) : exec .clear s = .next s.acknowledge := by
  simp [exec, execClear, hb]

/-! ### The acknowledged state -/

/-- The acknowledgement by an idle block (60_exceptions.md R115): STATUS and RESULT, and nothing else. -/
theorem acknowledge_of_idle {s : State} (hb : s.status.busy = false) :
    s.acknowledge = { s with status := { busy := false, done := false, err := none }, result := 0#32 } := by
  simp [State.acknowledge, hb]

/-- 10_state.md R35: irq needs DONE, so it is low after an acknowledgement, whatever IE holds. -/
theorem acknowledge_irq (s : State) : s.acknowledge.irq = false := by
  simp [State.irq]

/-! ### The obligations -/

/-- Settles O9: the CMD write of 0x0000_0000 is the command NOP, which keeps every state. -/
theorem nopHasNoEffect : Obligations.NopHasNoEffect := by
  intro s
  exact ⟨exec_nop s, (hostAccess_write_encode .nop s).trans (exec_nop s)⟩

/-- Settles O10: CLEAR keeps the state while BUSY = 1, and otherwise answers the acknowledged state. -/
theorem clearAcknowledgesACompletion : Obligations.ClearAcknowledgesACompletion := by
  intro s
  refine ⟨hostAccess_write_encode .clear s, exec_clear_of_busy, fun hb => ?_⟩
  exact ⟨s.acknowledge, exec_clear_of_idle hb, acknowledge_of_idle hb, acknowledge_irq s⟩

end Sys2Proof.Machine
end

section
/-! PROOFS. Register access (43_register_access.md): which transactions the port admits (R96), which register an offset
selects, what a read returns (R98) and what a write stores (R99 to R106). -/

namespace Sys2Proof

/-! ### Offsets and admission -/

/-- offset[1:0] = 00 as arithmetic (43_register_access.md R96). -/
theorem offsetAligned_iff {o : BitVec 6} : offsetAligned o = true ↔ o.toNat % 4 = 0 := by
  simp [offsetAligned, ← BitVec.toNat_inj]

theorem Access.wf_read_iff {o : BitVec 6} {size : AccessSize} :
    (Access.read o size).wf = true ↔ size = .word ∧ o.toNat % 4 = 0 := by
  rw [Access.wf, Bool.and_eq_true, beq_iff_eq, offsetAligned_iff]

theorem Access.wf_write_iff {o : BitVec 6} {size : AccessSize} {d : Word} :
    (Access.write o size d).wf = true ↔ size = .word ∧ o.toNat % 4 = 0 := by
  rw [Access.wf, Bool.and_eq_true, beq_iff_eq, offsetAligned_iff]

/-- 10_state.md R38: the offsets from 0x28 on select reserved registers. -/
theorem Reg.ofOffset_reserved : ∀ o : BitVec 6, 0x28 ≤ o.toNat → ∃ k, Reg.ofOffset o = .reserved k := by decide

end Sys2Proof

namespace Sys2Proof.Machine

/-! ### Refusals -/

/-- A write that the port admits is refused only as a command is (20_memory.md R52). -/
theorem writeReg_refused {r : Reg} {d : Word} {s : State} {x : Refusal} (h : writeReg r d s = .refused x) :
    x = .selfTargeting := by
  cases r with
  | cmd =>
    simp only [writeReg, performCommand] at h
    split at h
    · obtain ⟨-, -, -, hx⟩ := exec_refused h
      exact hx
    · cases h
  | _ => cases h

/-- `accessNotAdmitted` answers exactly the transactions that fail `Access.wf` (43_register_access.md R96). -/
theorem hostAccess_accessNotAdmitted_iff {a : Access} {s : State} :
    hostAccess a s = .refused .accessNotAdmitted ↔ ¬a.wf = true := by
  unfold hostAccess admitsAccess
  split
  case isTrue ha =>
    refine iff_of_false (fun h => ?_) (not_not.2 ha)
    cases a with
    | read o size => cases h
    | write o size d => cases writeReg_refused h
  case isFalse ha => exact iff_of_true rfl ha

/-! ### Reads -/

/-- 43_register_access.md R98: engine state cannot be read. -/
theorem readReg_engine (s : State) (e : Engine) (r : Reg) : State.readReg { s with engine := e } r = s.readReg r := by
  cases r <;> rfl

theorem readAccess_engine (s : State) (e : Engine) (o : BitVec 6) :
    State.readAccess { s with engine := e } o = { s with engine := e, rdata := s.readReg (Reg.ofOffset o) } := by
  rw [State.readAccess, readReg_engine]

/-- 43_register_access.md R98: a reserved offset reads 0. -/
theorem readReg_of_reserved_offset (s : State) {o : BitVec 6} (h : 0x28 ≤ o.toNat) :
    s.readReg (Reg.ofOffset o) = 0#32 := by
  obtain ⟨k, hk⟩ := Reg.ofOffset_reserved o h
  rw [hk]
  rfl

/-- 10_state.md R39 (a). -/
theorem result_of_busy {s : State} (hinv : s.StatusInv) (hb : s.status.busy = true) : s.result = 0#32 := by
  obtain ⟨hbusy, -⟩ := hinv
  obtain ⟨-, -, hresult⟩ := hbusy hb
  exact hresult

/-! ### Operand writes: `unlessBusy t` is the locked write that stores `t` (70_reset_and_hazards.md R134) -/

theorem hostAccess_write_locked_of_idle {s t : State} {o : BitVec 6} {d : Word} (ho : offsetAligned o = true)
    (hw : writeReg (Reg.ofOffset o) d s = .next (s.unlessBusy t)) (hb : s.status.busy = false) :
    hostAccess (.write o .word d) s = .next t := by
  rw [hostAccess_write ho, hw]
  simp [State.unlessBusy, hb]

theorem hostAccess_write_locked_of_busy {s t : State} {o : BitVec 6} {d : Word} (ho : offsetAligned o = true)
    (hw : writeReg (Reg.ofOffset o) d s = .next (s.unlessBusy t)) (hb : s.status.busy = true) :
    hostAccess (.write o .word d) s = .next s := by
  rw [hostAccess_write ho, hw]
  simp [State.unlessBusy, hb]

/-! ### The obligations -/

/-- Settles O19: the word is `readReg` of the register that the offset selects, which reads no engine register; while
BUSY = 1 the RESULT it shows is the 0 of 10_state.md R39. -/
theorem registerReadReturnsItsWord : Obligations.RegisterReadReturnsItsWord := by
  intro s o ho
  have hal : offsetAligned o = true := offsetAligned_iff.2 ho
  refine ⟨s.readReg (Reg.ofOffset o), fun e => ?engine, hostAccess_read hal s, ?_, ?_, ?_, ?_, ?_, ?_, ?_, ?_, ?result, ?_,
    readReg_of_reserved_offset s⟩
  case engine => rw [hostAccess_read hal, readAccess_engine]
  case result =>
    rintro rfl
    exact ⟨rfl, result_of_busy⟩
  all_goals
    rintro rfl
    rfl

/-- Settles O7: the CMD write is `performCommand`, by the decoder's answer, and CMD reads 0. -/
theorem cmdWritePerformsTheCommand : Obligations.CmdWritePerformsTheCommand := by
  intro s d
  refine ⟨fun i hi => ?_, fun ⟨r, hr⟩ => ?_, hostAccess_read rfl s⟩
  · rw [hostAccess_write_cmd, performCommand, hi]
  · rw [hostAccess_write_cmd, performCommand_of_decode_error hr]

/-- Settles O21: each of the five writes is a locked write of its own register. -/
theorem operandWritesStoreUnlessBusy : Obligations.OperandWritesStoreUnlessBusy := by
  intro s d
  refine ⟨fun hb => ?_, fun hb o ho => ?_⟩
  · exact ⟨hostAccess_write_locked_of_idle rfl rfl hb, hostAccess_write_locked_of_idle rfl rfl hb,
      hostAccess_write_locked_of_idle rfl rfl hb, hostAccess_write_locked_of_idle rfl rfl hb,
      hostAccess_write_locked_of_idle rfl rfl hb⟩
  · simp only [List.mem_cons, List.not_mem_nil, or_false] at ho
    obtain rfl | rfl | rfl | rfl | rfl := ho <;> exact hostAccess_write_locked_of_busy rfl rfl hb

/-- Settles O22: the write answers `writeIrqEn`, whatever the phase. -/
theorem irqEnableWriteTakesBitZero : Obligations.IrqEnableWriteTakesBitZero := by
  intro s d
  exact ⟨s.writeIrqEn d, hostAccess_write rfl d s, rfl, rfl, hostAccess_read rfl (s.writeIrqEn d)⟩

/-- Settles O23: the offset selects STATUS, RESULT, ID or a reserved register, whose write keeps the state. -/
theorem readOnlyAndReservedWritesAreIgnored : Obligations.ReadOnlyAndReservedWritesAreIgnored := by
  intro s o d ho hreg
  rw [hostAccess_write (offsetAligned_iff.2 ho)]
  obtain rfl | rfl | rfl | h := hreg
  · rfl
  · rfl
  · rfl
  · obtain ⟨k, hk⟩ := Reg.ofOffset_reserved o h
    rw [hk]
    rfl

/-- Settles O24: the refusal is the failure of `Access.wf`. -/
theorem unadmittedAccessIsRefused : Obligations.UnadmittedAccessIsRefused := by
  intro s o size d
  exact ⟨hostAccess_accessNotAdmitted_iff.trans (not_congr Access.wf_read_iff),
    hostAccess_accessNotAdmitted_iff.trans (not_congr Access.wf_write_iff)⟩

end Sys2Proof.Machine
end

section
/-! PROOFS. Error completion (60_exceptions.md R111): what both kinds of error share, and the STATUS and irq they show. -/

namespace Sys2Proof.Machine

/-! ### The completed state -/

/-- 43_register_access.md R98: the STATUS word of an error completion, for either kind. -/
theorem statusWord_of_error (e : ErrorKind) :
    Status.word { busy := false, done := true, err := some e } = 0#28 ++ e.code ++ 1#1 ++ 0#1 := rfl

/-- 10_state.md R35: an error completion sets DONE, so irq follows IE. -/
theorem raiseError_irq (e : ErrorKind) (s : State) : (s.raiseError e).irq = s.ie := by
  simp [State.irq]

/-! ### The PACK step that fails a check -/

/-- 40_pack.md R71, R73: the error that an idle block's PACK raises. -/
def State.PackFails (s : State) (e : ErrorKind) : Prop :=
  e = .invalidWidth ∧ ¬(1 ≤ s.width.toNat ∧ s.width.toNat ≤ 8) ∨
    e = .bufferTooSmall ∧ (1 ≤ s.width.toNat ∧ s.width.toNat ≤ 8) ∧ s.outCap.toNat < s.req

/-- 60_exceptions.md R111: a failed check completes in the PACK step, in the same way for both kinds. -/
theorem exec_pack_of_fails {s : State} {e : ErrorKind} (hb : s.status.busy = false) (he : s.PackFails e) :
    exec .pack s = .next (s.acknowledge.raiseError e) := by
  obtain ⟨rfl, hw⟩ | ⟨rfl, hw, hc⟩ := he
  · exact exec_pack_of_illegal_width hb (mt widthLegal_iff.1 hw)
  · exact exec_pack_of_small_capacity hb (widthLegal_iff.2 hw) (mt capacityEnough_iff.1 hc.not_ge)

/-! ### The obligation -/

/-- Settles O13: PACK answers the acknowledged state with the error raised, whose STATUS word is the kind's code with DONE. -/
theorem packErrorCompletesInItsStep : Obligations.PackErrorCompletesInItsStep := by
  intro s e hb he
  have hrecord := acknowledge_raiseError_of_idle hb e
  have hword : (s.acknowledge.raiseError e).status.word = 0#28 ++ e.code ++ 1#1 ++ 0#1 := by
    rw [hrecord, statusWord_of_error]
  refine ⟨s.acknowledge.raiseError e, exec_pack_of_fails hb he, hrecord, ?_, ?_, raiseError_irq e s.acknowledge⟩
  · rintro rfl
    exact hword
  · rintro rfl
    exact hword

end Sys2Proof.Machine
end

section
/-! PROOFS. What a turn can do to an operation in progress, and the cursor, stream, port, window and memory invariants that
every step keeps (41_datapath.md R90, 20_memory.md R43, R44, R52). A turn is `perform`; `step_eq_perform` makes it a step. -/

namespace Sys2Proof.Machine

/-! ### The turns that leave BUSY = 1 -/

/-- How a turn can lead to a state with BUSY = 1: PACK accepts, or the operation in progress goes on and the turn is one of
the host's that leaves it alone, a host memory write, or a RUN step. -/
inductive ToBusy (e : Event) (s t : State) : Prop where
  | accepted (he : e.commands .pack) (hb : s.status.busy = false) (hw : s.widthLegal = true)
      (hc : s.capacityEnough = true) (hs : s.selfTargets = false) (ht : t = s.acknowledge.accept)
  | undisturbed (hb : s.status.busy = true)
      (ht : t = { s with rdata := t.rdata, mdata := t.mdata, draws := t.draws, pending := t.pending, ie := t.ie })
  | hostWrote (hb : s.status.busy = true) (a : Word) (v : Byte) (he : e = .memWrite a v) (ht : t = s.hostMemWrite a v)
  | ran (hb : s.status.busy = true) (he : e = .engine) (hi : s.engine.idx.toNat < s.inCount.toNat)
      (ht : s.runStep = some t)

/-- A command that leaves BUSY = 1 is ignored, or the PACK that accepts. -/
theorem exec_toBusy {e : Event} {i : Instr} {s t : State} (he : e.commands i) (h : exec i s = .next t)
    (hb : t.status.busy = true) : ToBusy e s t := by
  obtain rfl | ⟨hs, ⟨rfl, rfl⟩ | ⟨rfl, -, rfl⟩ | ⟨rfl, -, -, rfl⟩ | ⟨rfl, hw, hc, hst, rfl⟩⟩ := exec_next h
  · exact .undisturbed hb rfl
  · exact Bool.noConfusion (hs.symm.trans hb)
  · exact Bool.noConfusion (hs.symm.trans hb)
  · exact Bool.noConfusion (hs.symm.trans hb)
  · exact .accepted he hs hw hc hst rfl

/-- The engine's turn that leaves BUSY = 1 has no effect, or is a RUN step: FINISH clears BUSY. -/
theorem engineTurn_toBusy {s : State} (hb : s.engineTurn.status.busy = true) : ToBusy .engine s s.engineTurn := by
  obtain ⟨ht, -⟩ | ⟨t, hs, ht⟩ := engineTurn_cases s
  · rw [ht] at hb ⊢
    exact .undisturbed hb rfl
  · rw [ht] at hb ⊢
    obtain ⟨hs', hi, hr⟩ | ⟨-, -, hf⟩ := engineStep_some hs
    · exact .ran hs' rfl hi hr
    · obtain ⟨u, -, rfl⟩ := finishStep_some hf
      cases hb

theorem perform_toBusy {e : Event} {s t : State} (h : perform e s = .next t) (hb : t.status.busy = true) :
    ToBusy e s t := by
  obtain ⟨i, he, hx⟩ | ht | ⟨d, -, rfl⟩ | ⟨hs, ht⟩ | ⟨a, v, he, rfl⟩ | ⟨rfl, rfl⟩ | ⟨-, rfl⟩ := perform_next h
  · exact exec_toBusy he hx hb
  · rw [ht] at hb
    exact .undisturbed hb (by rw [ht])
  · exact .undisturbed hb rfl
  · rw [ht] at hb
    exact Bool.noConfusion (hs.symm.trans hb)
  · exact .hostWrote hb a v he rfl
  · exact engineTurn_toBusy hb
  · cases hb

/-! ### What PACK's checks give an accepted operation -/

theorem width_le_of_busy {s : State} (h : s.StatusInv) (hb : s.status.busy = true) : s.width.toNat ≤ 8 := by
  obtain ⟨-, -, hlegal, -⟩ := h
  obtain ⟨-, hw, -⟩ := hlegal hb
  exact hw

/-- An operation just accepted has placed nothing (40_pack.md R74). -/
theorem accept_cursor (s : State) : Cursor s.accept 0 := ⟨rfl, fun _ _ => BitVec.getLsbD_zero⟩

theorem accept_engineInv (s : State) : s.accept.EngineInv := by
  refine engineInv_of_cursor (Nat.zero_le _) ?_
  rw [show s.accept.engine.idx.toNat * s.accept.width.toNat = 0 from Nat.zero_mul _]
  exact accept_cursor s

theorem accept_packedInv (s : State) : s.accept.PackedInv := fun _ _ =>
  ⟨fun q hq => absurd hq (Nat.not_lt_zero q), fun k hk => absurd hk (Nat.not_lt_zero k)⟩

theorem accept_portInv (s : State) : s.accept.PortInv := fun _ => ⟨rfl, rfl⟩

/-! ### The cursor invariants -/

/-- The bits of one symbol more still fit the operation. -/
theorem bits_of_next_symbol {s : State} (hi : s.engine.idx.toNat < s.inCount.toNat) :
    s.engine.idx.toNat * s.width.toNat + s.width.toNat ≤ s.inCount.toNat * s.width.toNat :=
  (Nat.succ_mul _ _).symm.trans_le (Nat.mul_le_mul_right _ hi)

/-- A RUN step moves the cursor past one symbol's bits. -/
theorem runStep_engineInv {s t : State} (hb : s.status.busy = true) (hi : s.engine.idx.toNat < s.inCount.toNat)
    (hw : s.width.toNat ≤ 8) (he : s.EngineInv) (h : s.runStep = some t) : t.EngineInv := by
  obtain ⟨-, u, hu, rfl⟩ := runStep_some h
  have hN := s.inCount.isLt
  have hbits := bits_le hw
  have hidx : (s.engine.idx + 1#32).toNat = s.engine.idx.toNat + 1 := word_toNat_succ (by omega)
  have hcursor := cursor_of_engineInv hb he
  have hc : Cursor u (s.engine.idx.toNat * s.width.toNat + s.width.toNat) :=
    putBits_cursor (B := s.inCount.toNat * s.width.toNat) (by exact ⟨hcursor.count, hcursor.low⟩)
      (bits_of_next_symbol hi) (by omega) hu
  have hframe := (putBits_frame hu).1
  have hcount : u.inCount = s.inCount := by rw [hframe]
  have hwidth : u.width = s.width := by rw [hframe]
  refine engineInv_of_cursor ?_ ?_
  · rw [hidx, hcount]
    exact hi
  · rw [hidx, hwidth, Nat.succ_mul]
    exact ⟨hc.count, hc.low⟩

theorem perform_engineInv {e : Event} {s t : State} (h : perform e s = .next t) (hs : s.StatusInv) (he : s.EngineInv) :
    t.EngineInv := by
  intro hb
  cases perform_toBusy h hb with
  | accepted _ _ _ _ _ ht => rw [ht] at hb ⊢; exact accept_engineInv _ hb
  | undisturbed hb' ht => rw [ht]; exact he hb'
  | hostWrote hb' _ _ _ ht => rw [ht]; exact he hb'
  | ran hb' _ hi ht => exact runStep_engineInv hb' hi (width_le_of_busy hs hb') he ht hb

/-- Settles O33: PACK starts the cursor, a RUN step moves it past one symbol, and no other turn moves it. -/
theorem stepKeepsEngineInvariant : Obligations.StepKeepsEngineInvariant := by
  intro s t hs he h
  rw [step_eq_perform] at h
  exact perform_engineInv h hs he

/-! ### The port's record -/

theorem perform_portInv {e : Event} {s t : State} (h : perform e s = .next t) (hs : s.StatusInv) (he : s.EngineInv)
    (hp : s.PortInv) (hm : s.MemInv) : t.PortInv := by
  intro hb
  cases perform_toBusy h hb with
  | accepted _ _ _ _ _ ht => rw [ht] at hb ⊢; exact accept_portInv _ hb
  | undisturbed hb' ht => rw [ht]; exact hp hb'
  | hostWrote hb' _ _ _ ht => rw [ht]; exact hp hb'
  | ran hb' _ hi ht =>
    obtain ⟨-, -, -, -, hpt, -, -⟩ := runStep_spec hb' hi (width_le_of_busy hs hb') he hp hm ht
    exact hpt hb

/-- Settles O35: PACK empties the record, a RUN step adds one read and the writes of the bytes it fills, and no other turn
changes it during an operation. -/
theorem stepKeepsPortInvariant : Obligations.StepKeepsPortInvariant := by
  intro s t hs h
  rw [step_eq_perform] at h
  exact perform_portInv h hs.status hs.engine hs.port hs.mem

/-! ### The bits and bytes so far -/

/-- A byte of the input range of an operation whose output is not open is outside the output range (20_memory.md R57). -/
theorem inOutput_eq_false_of_inInput {s : State} (ho : s.outputOpen = false) {a : Word} (ha : s.inInput a = true) :
    s.inOutput a = false := by
  by_contra hout
  exact Bool.noConfusion (ho.symm.trans (outputOpen_iff.2 (.inl ⟨a, ha, Bool.not_eq_false _ ▸ hout⟩)))

/-- A RUN step goes on with the output function (41_datapath.md R90 (d), (e)). -/
theorem runStep_packedInv {s t : State} (hs : s.Inv) (hb : s.status.busy = true)
    (hi : s.engine.idx.toNat < s.inCount.toNat) (h : s.runStep = some t) : t.PackedInv := by
  intro hbt ho
  have hw := width_le_of_busy hs.status hb
  obtain ⟨hframe, -, -, -, -, hother, hplaced⟩ := runStep_spec hb hi hw hs.engine hs.port hs.mem h
  have hos : s.outputOpen = false := by rw [hframe] at ho; exact ho
  have hf : t.outputBit = s.outputBit :=
    outputBit_congr (by rw [hframe]) (by rw [hframe]) (by rw [hframe])
      fun a ha => hother a (inOutput_eq_false_of_inInput hos ha)
  have hps : Placed s.outputBit s := (placed_iff hb hs.engine).2 (hs.packed hb hos)
  refine (placed_iff hbt (runStep_engineInv hb hi hw hs.engine h)).1 ?_
  rw [hf]
  exact hplaced hps

/-- A host write that leaves the output not open is in neither range (20_memory.md R56). -/
theorem hostMemWrite_outside {s : State} {a : Word} {v : Byte} (hb : s.status.busy = true)
    (ho : (s.hostMemWrite a v).outputOpen = false) :
    s.outputOpen = false ∧ s.inInput a = false ∧ s.inOutput a = false := by
  have h : ((s.intruded || (s.status.busy && (s.inInput a || s.inOutput a))) || s.overlaps) = false := ho
  rw [hb] at h
  simp only [Bool.true_and, Bool.or_eq_false_iff] at h
  obtain ⟨⟨hint, hin, hout⟩, hov⟩ := h
  exact ⟨by rw [State.outputOpen, hint, hov]; rfl, hin, hout⟩

/-- A host write outside both ranges leaves the bits and bytes so far, and the output function, as they are. -/
theorem hostMemWrite_packedInv {s : State} (hs : s.Inv) (hb : s.status.busy = true) (a : Word) (v : Byte) :
    (s.hostMemWrite a v).PackedInv := by
  intro hbt ho
  obtain ⟨hos, hin, hout⟩ := hostMemWrite_outside hb ho
  have hbyte : ∀ x, a ≠ x → (s.hostMemWrite a v).byteAt x = s.byteAt x := fun x hx =>
    (byteAt_setByte hs.mem a v x).trans (if_neg hx)
  have hf : (s.hostMemWrite a v).outputBit = s.outputBit :=
    outputBit_congr rfl rfl rfl fun x hx => hbyte x (by rintro rfl; rw [hin] at hx; cases hx)
  have he : (s.hostMemWrite a v).EngineInv := hs.engine
  have hps : Placed s.outputBit s := (placed_iff hb hs.engine).2 (hs.packed hb hos)
  refine (placed_iff hbt he).1 ?_
  rw [hf]
  refine ⟨hps.acc, fun k hk q hq => ?_⟩
  obtain ⟨-, -, -, hoidx, -⟩ := hs.engine hb
  have hreq : k < s.req := lt_of_lt_of_le hk hoidx
  have hk' : k < 2 ^ 32 := lt_trans hk s.engine.oidx.isLt
  refine (congrArg (BitVec.getLsbD · (7 - q)) (hbyte (s.outputAddr k) ?_)).trans (hps.bytes k hk q hq)
  rintro rfl
  rw [inOutput_outputAddr hreq hk'] at hout
  cases hout

theorem perform_packedInv {e : Event} {s t : State} (h : perform e s = .next t) (hs : s.Inv) : t.PackedInv := by
  intro hb
  cases perform_toBusy h hb with
  | accepted _ _ _ _ _ ht => rw [ht] at hb ⊢; exact accept_packedInv _ hb
  | undisturbed hb' ht => rw [ht]; exact hs.packed hb'
  | hostWrote hb' a v _ ht => rw [ht] at hb ⊢; exact hostMemWrite_packedInv hs hb' a v hb
  | ran hb' _ hi ht => exact runStep_packedInv hs hb' hi ht hb

/-- No invariant speaks of the turns to come. -/
theorem State.Inv.withPending {s : State} (h : s.Inv) (l : List Event) : State.Inv { s with pending := l } :=
  ⟨h.status, h.engine, h.packed, h.port, h.window, h.mem⟩

/-- Settles O34: a RUN step places the output function's next bits, and a host write that touches a range opens the output. -/
theorem stepKeepsPackedInvariant : Obligations.StepKeepsPackedInvariant := by
  intro s t hs h
  rw [step_eq_perform] at h
  exact perform_packedInv h (hs.withPending _)

/-! ### The block's own window -/

theorem runStep_frame {s t : State} (h : s.runStep = some t) :
    t = { s with mem := t.mem, portLog := t.portLog, engine := t.engine } := by
  obtain ⟨-, u, hu, rfl⟩ := runStep_some h
  rw [(putBits_frame hu).1]

theorem perform_windowInv {e : Event} {s t : State} (h : perform e s = .next t) (hw : s.WindowInv) : t.WindowInv := by
  intro hb
  cases perform_toBusy h hb with
  | accepted _ _ _ _ hst ht => rw [ht]; exact mt selfTargets_iff.2 (Bool.eq_false_iff.1 hst)
  | undisturbed hb' ht => rw [ht]; exact hw hb'
  | hostWrote hb' _ _ _ ht => rw [ht]; exact hw hb'
  | ran hb' _ _ ht => rw [runStep_frame ht]; exact hw hb'

/-- Settles O36: PACK accepts no operation that names the window, and no turn changes what it names. -/
theorem stepKeepsWindowInvariant : Obligations.StepKeepsWindowInvariant := by
  intro s t hw h
  rw [step_eq_perform] at h
  exact perform_windowInv h hw

end Sys2Proof.Machine
end

section
/-! PROOFS. The RUN step in the closed form of 41_datapath.md R83, by induction on the bits that remain to be placed. -/

namespace Sys2Proof.Machine

/-! ### The 16-bit window X of R83 -/

/-- X of R83: ACC in the high byte, and the `n` low bits of `v` shifted to the cursor, by `k` = 16 - t. -/
def runWord (acc : Byte) (v n k : Nat) : Nat := acc.toNat <<< 8 ||| (v % 2 ^ n) <<< k

/-- Placing the first of `n + 1` bits at the cursor leaves the window as it is. -/
theorem runWord_setBit {acc : Byte} {p : BitVec 3} {v n k : Nat} (h : acc.getLsbD p.toNat = false)
    (hk : k + n = 8 + p.toNat) : runWord (setBit acc p (v.testBit n)) v n k = runWord acc v (n + 1) k := by
  unfold runWord
  rw [toNat_setBit_of_clear h]
  apply Nat.eq_of_testBit_eq
  intro i
  simp only [Nat.testBit_or, Nat.testBit_shiftLeft, Nat.testBit_mod_two_pow, Nat.testBit_bool_toNat]
  by_cases hi : i = 8 + p.toNat
  · subst hi
    have hn : 8 + p.toNat - k = n := by omega
    simp [hn, show k ≤ 8 + p.toNat by omega]
  · have h₁ : ¬(8 ≤ i ∧ p.toNat ≤ i - 8 ∧ i - 8 - p.toNat = 0) := by omega
    have h₂ : k ≤ i → (i - k < n ↔ i - k < n + 1) := by omega
    grind

/-- The two bytes of the window when the bits below ACC all fit the low byte. -/
theorem runWord_bytes (acc : Byte) {v n k : Nat} (hk : n + k ≤ 8) :
    runWord acc v n k / 256 = acc.toNat ∧ runWord acc v n k % 256 = (v % 2 ^ n) <<< k := by
  have hlt : (v % 2 ^ n) <<< k < 2 ^ 8 := by
    rw [Nat.shiftLeft_eq]
    calc v % 2 ^ n * 2 ^ k < 2 ^ n * 2 ^ k :=
          Nat.mul_lt_mul_of_pos_right (Nat.mod_lt _ (Nat.two_pow_pos n)) (Nat.two_pow_pos k)
      _ = 2 ^ (n + k) := (Nat.pow_add ..).symm
      _ ≤ 2 ^ 8 := Nat.pow_le_pow_right (by omega) hk
  rw [runWord, Nat.shiftLeft_eq acc.toNat, Nat.mul_comm, ← Nat.two_pow_add_eq_or_of_lt hlt]
  generalize (v % 2 ^ n) <<< k = r at hlt ⊢
  omega

/-- With no bit left to place the window's high byte is ACC. -/
theorem runWord_zero (acc : Byte) (v k : Nat) : runWord acc v 0 k / 256 = acc.toNat := by
  simp [runWord, Nat.mod_one, Nat.shiftLeft_eq]

/-- The window with an empty ACC, one byte further up. -/
theorem runWord_empty_div (v n k : Nat) : runWord 0#8 v n (k + 8) / 256 = (v % 2 ^ n) <<< k := by
  simp [runWord, Nat.shiftLeft_eq, Nat.pow_add, ← Nat.mul_assoc]

/-! ### The loop of R82 on the window -/

/-- Placing a bit at the cursor leaves ACC empty below it. -/
theorem setBit_low {acc : Byte} {p : BitVec 3} (h0 : p ≠ 0#3) (hlow : ∀ j < p.toNat + 1, acc.getLsbD j = false) (b : Bool) :
    ∀ j < (p - 1#3).toNat + 1, (setBit acc p b).getLsbD j = false := by
  have hpred := bitpos_pred h0
  intro j hj
  rw [getLsbD_setBit _ _ _ _ (by omega), if_neg (by omega)]
  exact hlow j (by omega)

/-- The loop whose bits stay inside the byte under the cursor: the window's high byte is the new ACC. -/
theorem putBits_inside {v : Byte} {n k : Nat} {s : State} (hk : k + n = 9 + s.engine.bitpos.toNat) (h9 : 9 ≤ k)
    (hlow : ∀ j < s.engine.bitpos.toNat + 1, s.engine.acc.getLsbD j = false) :
    State.putBits v n s = some { s with engine :=
      { s.engine with
        acc := BitVec.ofNat 8 (runWord s.engine.acc v.toNat n k / 256), bitpos := BitVec.ofNat 3 (k - 9) } } := by
  induction n generalizing s with
  | zero =>
    have hpos : k - 9 = s.engine.bitpos.toNat := by omega
    rw [putBits_zero, runWord_zero, hpos]
    simp
  | succ n ih =>
    have h0 : s.engine.bitpos ≠ 0#3 := by
      intro h
      have hz : s.engine.bitpos.toNat = 0 := by rw [h]; rfl
      omega
    have hpred := bitpos_pred h0
    rw [putBits_succ, putBit_of_not_last h0, Option.bind_some,
      ← runWord_setBit (n := n) (hlow _ (Nat.lt_succ_self _)) (by omega)]
    exact ih (by simp only; omega) (setBit_low h0 hlow _)

/-- The loop whose bits fill the byte under the cursor: the window's high byte is written and its low byte is the new ACC. -/
theorem putBits_across {v : Byte} {n k : Nat} {s : State} (hk : k + n = 9 + s.engine.bitpos.toNat) (h1 : 1 ≤ k)
    (h8 : k ≤ 8) (hlow : ∀ j < s.engine.bitpos.toNat + 1, s.engine.acc.getLsbD j = false)
    (ha : portAdmits s.platform (s.outAddr + s.engine.oidx) .write = true) :
    State.putBits v n s = some { s.setByte (s.outAddr + s.engine.oidx)
        (BitVec.ofNat 8 (runWord s.engine.acc v.toNat n k / 256)) with
      portLog := s.portLog ++
        [.write (s.outAddr + s.engine.oidx) (BitVec.ofNat 8 (runWord s.engine.acc v.toNat n k / 256))]
      engine := { acc := BitVec.ofNat 8 (runWord s.engine.acc v.toNat n k % 256), bitpos := BitVec.ofNat 3 (k - 1)
                  idx := s.engine.idx, oidx := s.engine.oidx + 1#32 } } := by
  induction n generalizing s with
  | zero =>
    have hp := s.engine.bitpos.isLt
    omega
  | succ n ih =>
    rw [putBits_succ, ← runWord_setBit (n := n) (hlow _ (Nat.lt_succ_self _)) (by omega)]
    by_cases h0 : s.engine.bitpos = 0#3
    · have hz : s.engine.bitpos.toNat = 0 := by rw [h0]; rfl
      obtain ⟨hhigh, hlow8⟩ := runWord_bytes (setBit s.engine.acc s.engine.bitpos (v.toNat.testBit n)) (v := v.toNat)
        (show n + k ≤ 8 by omega)
      rw [putBit_of_last h0 ha, Option.bind_some,
        putBits_inside (k := k + 8) (by simp only; simp; omega) (by omega) (fun _ _ => BitVec.getLsbD_zero), hhigh, hlow8,
        runWord_empty_div]
      simp [BitVec.getLsbD]
    · have hpred := bitpos_pred h0
      rw [putBit_of_not_last h0, Option.bind_some]
      exact ih (by simp only; omega) (setBit_low h0 hlow _) ha

/-! ### The obligation -/

theorem toNat_maskSymbol_mod (w : Nat) (sym : Byte) : (maskSymbol w sym).toNat % 2 ^ w = sym.toNat % 2 ^ w := by
  rw [toNat_maskSymbol, Nat.and_two_pow_sub_one_eq_mod, Nat.mod_mod]

/-- The RUN step is its read, the loop, and the advance of IDX (41_datapath.md R82). -/
theorem runStep_of_putBits {s u : State} (ha : portAdmits s.platform (s.inAddr + s.engine.idx) .read = true)
    (hu : State.putBits (maskSymbol s.width.toNat (s.byteAt (s.inAddr + s.engine.idx))) s.width.toNat
      { s with portLog := s.portLog ++ [.read (s.inAddr + s.engine.idx)] } = some u) :
    s.runStep = some { u with engine := { u.engine with idx := u.engine.idx + 1#32 } } := by
  rw [State.runStep, portRead_of_admit ha, Option.bind_some, hu, Option.map_some]

/-- Settles O28: with k = 16 - t, the loop fills the byte under the cursor exactly when k is at most 8. -/
theorem runStepHasTheClosedForm : Obligations.RunStepHasTheClosedForm := by
  intro s hb hi hw1 hw8 hlow har haw v t X
  have hp := s.engine.bitpos.isLt
  have hX : X = runWord s.engine.acc
      (maskSymbol s.width.toNat (s.byteAt (s.inAddr + s.engine.idx))).toNat s.width.toNat (16 - t) := by
    rw [runWord, toNat_maskSymbol_mod]
  have hk : 16 - t + s.width.toNat = 9 + s.engine.bitpos.toNat := by omega
  rw [engineStep_run hb hi, hX]
  split
  case isTrue h8 =>
    rw [runStep_of_putBits har (putBits_across hk (by omega) (by omega) hlow (haw h8)), show 16 - t - 1 = 15 - t by omega]
    simp [State.setByte]
  case isFalse h8 =>
    rw [runStep_of_putBits har (putBits_inside hk (by omega) hlow), show 16 - t - 9 = 7 - t by omega]

end Sys2Proof.Machine
end

section
/-! PROOFS. What a turn can do to the completion status, to memory and to the rest of the state: the invariants of
10_state.md R39, the rules of the whole machine (10_state.md R26 to R29, 60_exceptions.md R117), and the invariants
together. -/

namespace Sys2Proof.Machine

/-! ### The turns that change STATUS, RESULT or IE -/

/-- How a turn can change STATUS, RESULT and IE. -/
inductive StatusChange (e : Event) (s t : State) : Prop where
  | kept (hs : t.status = s.status) (hr : t.result = s.result) (hi : t.ie = s.ie)
  | irqEn (d : Word) (he : e = .access (.write 0x08#6 .word d)) (hs : t.status = s.status) (hr : t.result = s.result)
      (hi : t.ie = d.getLsbD 0)
  | acknowledged (he : e.commands .clear) (hb : s.status.busy = false)
      (hs : t.status = { busy := false, done := false, err := none }) (hr : t.result = 0#32) (hi : t.ie = s.ie)
  | failed (k : ErrorKind) (he : e.commands .pack) (hb : s.status.busy = false)
      (hs : t.status = { busy := false, done := true, err := some k }) (hr : t.result = 0#32) (hi : t.ie = s.ie)
  | accepted (he : e.commands .pack) (hb : s.status.busy = false)
      (hs : t.status = { busy := true, done := false, err := none }) (hr : t.result = 0#32) (hi : t.ie = s.ie)
  | finished (he : e = .engine) (hp : s.phase = some .finish)
      (hs : t.status = { busy := false, done := true, err := none }) (hi : t.ie = s.ie)
  | reset (he : e = .reset) (hs : t.status = { busy := false, done := false, err := none }) (hr : t.result = 0#32)
      (hi : t.ie = false)

theorem exec_statusChange {e : Event} {i : Instr} {s t : State} (he : e.commands i) (h : exec i s = .next t) :
    StatusChange e s t := by
  obtain rfl | ⟨hb, ⟨rfl, rfl⟩ | ⟨rfl, -, rfl⟩ | ⟨rfl, -, -, rfl⟩ | ⟨rfl, -, -, -, rfl⟩⟩ := exec_next h
  · exact .kept rfl rfl rfl
  · exact .acknowledged he hb (by simp [hb]) rfl rfl
  · exact .failed .invalidWidth he hb (by simp [hb]) rfl rfl
  · exact .failed .bufferTooSmall he hb (by simp [hb]) rfl rfl
  · exact .accepted he hb rfl rfl rfl

theorem engineTurn_statusChange (s : State) : StatusChange .engine s s.engineTurn := by
  obtain ⟨ht, -⟩ | ⟨t, hs, ht⟩ := engineTurn_cases s
  · rw [ht]
    exact .kept rfl rfl rfl
  · rw [ht]
    obtain ⟨hf, -⟩ | ⟨hf, hp⟩ := engineStep_frame hs
    · rw [hf]
      exact .kept rfl rfl rfl
    · rw [hf]
      exact .finished rfl hp rfl rfl

theorem perform_statusChange {e : Event} {s t : State} (h : perform e s = .next t) : StatusChange e s t := by
  obtain ⟨i, he, hx⟩ | ht | ⟨d, he, rfl⟩ | ⟨-, ht⟩ | ⟨a, v, -, rfl⟩ | ⟨rfl, rfl⟩ | ⟨he, rfl⟩ := perform_next h
  · exact exec_statusChange he hx
  · rw [ht]
    exact .kept rfl rfl rfl
  · exact .irqEn d he rfl rfl rfl
  · rw [ht]
    exact .kept rfl rfl rfl
  · exact .kept rfl rfl rfl
  · exact engineTurn_statusChange s
  · exact .reset he rfl rfl rfl

/-- The change by a step: the queue, which is one turn shorter then, has no part in it. -/
theorem step_statusChange {s t : State} (h : step s = .next t) : StatusChange s.turn s t := by
  rw [step_eq_perform] at h
  cases perform_statusChange h with
  | kept hs hr hi => exact .kept hs hr hi
  | irqEn d he hs hr hi => exact .irqEn d he hs hr hi
  | acknowledged he hb hs hr hi => exact .acknowledged he hb hs hr hi
  | failed k he hb hs hr hi => exact .failed k he hb hs hr hi
  | accepted he hb hs hr hi => exact .accepted he hb hs hr hi
  | finished he hp hs hi => exact .finished he hp hs hi
  | reset he hs hr hi => exact .reset he hs hr hi

/-! ### The status invariants -/

/-- 10_state.md R39 (d): the operands of an operation in progress passed PACK's checks. -/
theorem perform_operandsLegal {e : Event} {s t : State} (h : perform e s = .next t) (hs : s.StatusInv)
    (hb : t.status.busy = true) : 1 ≤ t.width.toNat ∧ t.width.toNat ≤ 8 ∧ t.req ≤ t.outCap.toNat := by
  obtain ⟨-, -, hlegal, -⟩ := hs
  cases perform_toBusy h hb with
  | accepted _ _ hw hc _ ht =>
    rw [ht]
    obtain ⟨hw1, hw8⟩ := widthLegal_iff.1 hw
    exact ⟨hw1, hw8, capacityEnough_iff.1 hc⟩
  | undisturbed hb' ht => rw [ht]; exact hlegal hb'
  | hostWrote hb' _ _ _ ht => rw [ht]; exact hlegal hb'
  | ran hb' _ _ ht => rw [runStep_frame ht]; exact hlegal hb'

theorem perform_statusInv {e : Event} {s t : State} (h : perform e s = .next t) (hs : s.StatusInv) : t.StatusInv := by
  have hlegal := perform_operandsLegal h hs
  obtain ⟨hbusy, herr, -, hresult⟩ := hs
  suffices hrest : (t.status.busy = true → t.status.done = false ∧ t.status.err = none ∧ t.result = 0#32) ∧
      (t.status.err ≠ none → t.status.done = true ∧ t.result = 0#32) ∧
      (t.result ≠ 0#32 → t.status.done = true ∧ t.status.err = none) by
    obtain ⟨hb, he, hr⟩ := hrest
    exact ⟨hb, he, hlegal, hr⟩
  cases perform_statusChange h with
  | kept hst hr _ | irqEn _ _ hst hr _ => rw [hst, hr]; exact ⟨hbusy, herr, hresult⟩
  | acknowledged _ _ hst hr _ => simp [hst, hr]
  | failed _ _ _ hst hr _ => simp [hst, hr]
  | accepted _ _ hst hr _ => simp [hst, hr]
  | finished _ _ hst _ => simp [hst]
  | reset _ hst hr _ => simp [hst, hr]

/-- Settles O32: each change of STATUS and RESULT keeps them in step, and BUSY = 1 keeps PACK's checks passed. -/
theorem stepKeepsStatusInvariant : Obligations.StepKeepsStatusInvariant := by
  intro s t hs h
  rw [step_eq_perform] at h
  exact perform_statusInv h hs

/-! ### Rules of the whole machine -/

/-- Settles O40: of the changes of STATUS only an accept sets BUSY, and only FINISH and reset clear it. -/
theorem busyChangesOnlyAtItsSteps : Obligations.BusyChangesOnlyAtItsSteps := by
  intro s t h
  cases step_statusChange h with
  | kept hs _ _ | irqEn _ _ hs _ _ => simp_all
  | acknowledged _ hb hs _ _ | failed _ _ hb hs _ _ => simp [hs, hb]
  | accepted he hb hs _ _ => simp [hs, hb, he]
  | finished he hp hs _ => simp [hs, he, hp]
  | reset he hs _ _ => simp [hs, he]

/-- Settles O41: DONE, ERR and RESULT change as STATUS does; a command changes them while BUSY = 0 only. -/
theorem doneChangesOnlyAtItsSteps : Obligations.DoneChangesOnlyAtItsSteps := by
  intro s t h
  cases step_statusChange h with
  | kept hs hr _ | irqEn _ _ hs hr _ => simp_all
  | acknowledged he hb hs hr _ => simp [hs, hr, hb, he]
  | failed k he hb hs hr _ => simp [hs, hr, hb, he]
  | accepted he hb hs hr _ => simp [hs, hr, hb, he]
  | finished he hp hs _ => simp [hs, he, hp]
  | reset he hs hr _ => simp [hs, hr, he]

/-- Settles O42: irq is DONE and IE, so its edges are those of the changes of STATUS and of the IRQ_EN write. -/
theorem irqChangesOnlyAtItsCauses : Obligations.IrqChangesOnlyAtItsCauses := by
  intro s t h
  unfold State.irq
  cases step_statusChange h with
  | kept hs _ hi => simp_all
  | irqEn d he hs _ hi => simp_all
  | acknowledged he hb hs _ hi => simp [hs, hb, he]
  | failed k he hb hs _ hi => simp [hs, hb, he]
  | accepted he hb hs _ hi => simp [hs, hb, he]
  | finished he hp hs hi => simp_all
  | reset he hs _ hi => simp [hs, he]

/-! ### While BUSY = 1 -/

theorem exec_of_busy {s : State} (hb : s.status.busy = true) (i : Instr) : exec i s = .next s := by
  cases i with
  | nop => exact exec_nop s
  | pack => exact exec_pack_of_busy hb
  | clear => exact exec_clear_of_busy hb

/-- 70_reset_and_hazards.md R134, R135: what a turn of the host can change while BUSY = 1. -/
theorem perform_frame_of_busy {e : Event} {s t : State} (h : perform e s = .next t) (hb : s.status.busy = true)
    (he : e ≠ .engine) (hr : e ≠ .reset) :
    t = { s with
      rdata := t.rdata, mdata := t.mdata, draws := t.draws, pending := t.pending, ie := t.ie, mem := t.mem
      intruded := t.intruded } := by
  obtain ⟨i, -, hx⟩ | ht | ⟨d, -, rfl⟩ | ⟨hs, -⟩ | ⟨a, v, -, rfl⟩ | ⟨he', -⟩ | ⟨hr', -⟩ := perform_next h
  · rw [exec_of_busy hb] at hx
    cases hx
    rfl
  · rw [ht]
  · rfl
  · exact Bool.noConfusion (hs.symm.trans hb)
  · rfl
  · exact absurd he' he
  · exact absurd hr' hr

/-- Settles O43: commands and operand writes are dropped while BUSY = 1, and no other turn of the host reaches the block. -/
theorem hostCannotDisturbAnOperation : Obligations.HostCannotDisturbAnOperation := by
  intro s t hb he hr h
  rw [step_eq_perform] at h
  rw [perform_frame_of_busy h hb he hr]
  exact ⟨rfl, rfl, rfl, rfl, rfl, rfl, rfl, rfl, rfl⟩

/-! ### The platform -/

theorem exec_frame {i : Instr} {s t : State} (h : exec i s = .next t) :
    t = { s with
      status := t.status, result := t.result, engine := t.engine, portLog := t.portLog, intruded := t.intruded } := by
  obtain rfl | ⟨-, ⟨-, rfl⟩ | ⟨-, -, rfl⟩ | ⟨-, -, -, rfl⟩ | ⟨-, -, -, -, rfl⟩⟩ := exec_next h <;> rfl

theorem engineTurn_platform (s : State) : s.engineTurn.platform = s.platform := by
  obtain ⟨ht, -⟩ | ⟨t, hs, ht⟩ := engineTurn_cases s
  · rw [ht]
  · rw [ht]
    obtain ⟨hf, -⟩ | ⟨hf, -⟩ := engineStep_frame hs <;> rw [hf]

/-- Settles O39: no turn writes the platform's parameters. -/
theorem stepKeepsThePlatform : Obligations.StepKeepsThePlatform := by
  intro s t h
  rw [step_eq_perform] at h
  obtain ⟨i, -, hx⟩ | ht | ⟨d, -, rfl⟩ | ⟨-, ht⟩ | ⟨a, v, -, rfl⟩ | ⟨-, rfl⟩ | ⟨-, rfl⟩ := perform_next h
  · rw [exec_frame hx]
  · rw [ht]
  · rfl
  · rw [ht]
  · rfl
  · exact engineTurn_platform _
  · rfl

/-! ### Memory -/

theorem complete_wf {s : State} (hm : s.MemInv) : s.complete.MemInv := by
  unfold State.MemInv
  rw [State.complete_mem]
  split
  · exact Memory.wf_scramble hm _ _ _
  · exact hm

theorem flush_wf {s u : State} (hm : s.MemInv) (h : s.flush = some u) : u.MemInv := by
  obtain ⟨-, rfl⟩ | ⟨-, -, rfl⟩ := flush_some h
  · exact hm
  · exact Memory.wf_write (BitVec.isLt _) hm

theorem engineStep_wf {s t : State} (hm : s.MemInv) (h : s.engineStep = some t) : t.MemInv := by
  obtain ⟨-, -, hr⟩ | ⟨-, -, hf⟩ := engineStep_some h
  · obtain ⟨-, u, hu, rfl⟩ := runStep_some hr
    exact putBits_wf (t := u) hu hm
  · obtain ⟨u, hu, rfl⟩ := finishStep_some hf
    exact complete_wf (flush_wf hm hu)

theorem engineTurn_wf {s : State} (hm : s.MemInv) : s.engineTurn.MemInv := by
  obtain ⟨ht, -⟩ | ⟨t, hs, ht⟩ := engineTurn_cases s
  · rw [ht]
    exact hm
  · rw [ht]
    exact engineStep_wf hm hs

theorem resetStep_wf {s : State} (hm : s.MemInv) : s.resetStep.MemInv := by
  unfold State.MemInv
  rw [State.resetStep_mem]
  split
  · exact Memory.wf_scramble hm _ _ _
  · exact hm

theorem perform_memInv {e : Event} {s t : State} (h : perform e s = .next t) (hm : s.MemInv) : t.MemInv := by
  obtain ⟨i, -, hx⟩ | ht | ⟨d, -, rfl⟩ | ⟨-, ht⟩ | ⟨a, v, -, rfl⟩ | ⟨-, rfl⟩ | ⟨-, rfl⟩ := perform_next h
  · rw [exec_frame hx]
    exact hm
  · rw [ht]
    exact hm
  · exact hm
  · rw [ht]
    exact hm
  · exact Memory.wf_write a.isLt hm
  · exact engineTurn_wf hm
  · exact resetStep_wf hm

/-- Settles O37: a byte written and a range made free keep the canonical form. -/
theorem stepKeepsMemoryCanonical : Obligations.StepKeepsMemoryCanonical := by
  intro s t hm h
  rw [step_eq_perform] at h
  exact perform_memInv h hm

/-! ### The bytes outside the output range -/

/-- 70_reset_and_hazards.md R130: reset makes the output range of an operation in progress free, and leaves every other
byte. -/
theorem byteAt_resetStep {s : State} (hm : s.MemInv) (hr : s.status.busy = true → s.req ≤ 2 ^ 32) (a : Word) :
    s.resetStep.byteAt a =
      if s.status.busy = true ∧ s.inOutput a = true then Config.freeByte s.draws a else s.byteAt a := by
  rw [State.byteAt, State.resetStep_mem]
  cases hb : s.status.busy
  · simp [State.byteAt]
  · rw [if_pos rfl, Memory.read_scramble hm _ _ _ (hr hb)]
    simp only [State.inOutput, State.byteAt, true_and]

/-- For a legal width the output range is no longer than memory. -/
theorem req_le_two_pow {s : State} (hw : s.width.toNat ≤ 8) : s.req ≤ 2 ^ 32 :=
  (req_le_count hw).trans s.inCount.isLt.le

/-- The engine writes nothing outside the output range (20_memory.md R44). -/
theorem engineStep_other {s t : State} (hs : s.Inv) (h : s.engineStep = some t) {a : Word} (ha : s.inOutput a = false) :
    t.byteAt a = s.byteAt a := by
  obtain ⟨hb, hi, hr⟩ | ⟨hb, hi, hf⟩ := engineStep_some h
  · obtain ⟨-, -, -, -, -, hother, -⟩ :=
      runStep_spec hb hi (width_le_of_busy hs.status hb) hs.engine hs.port hs.mem hr
    exact hother a ha
  · have hw := width_le_of_busy hs.status hb
    obtain ⟨u, hu, rfl⟩ := finishStep_some hf
    obtain ⟨hframe, -, hm, -, -, hother, -⟩ := flush_spec hb hi hw hs.engine hs.mem hu
    have hout : u.inOutput a = false := by rw [hframe]; exact ha
    have hreq : u.req ≤ 2 ^ 32 := by rw [hframe]; exact req_le_two_pow hw
    rw [byteAt_complete hm hreq, if_neg (fun hc => Bool.noConfusion (hout.symm.trans hc.2)), hother a ha]

theorem engineTurn_other {s : State} (hs : s.Inv) {a : Word} (ha : s.status.busy = false ∨ s.inOutput a = false) :
    s.engineTurn.byteAt a = s.byteAt a := by
  obtain ⟨ht, -⟩ | ⟨t, hst, ht⟩ := engineTurn_cases s
  · rw [ht]
  · rw [ht]
    obtain hb | ha := ha
    · rw [engineStep_idle hb] at hst
      cases hst
    · exact engineStep_other hs hst ha

theorem perform_other {e : Event} {s t : State} (h : perform e s = .next t) (hs : s.Inv) {a : Word}
    (he : ∀ v, e ≠ .memWrite a v) (ha : s.status.busy = false ∨ s.inOutput a = false) : t.byteAt a = s.byteAt a := by
  obtain ⟨i, -, hx⟩ | ht | ⟨d, -, rfl⟩ | ⟨-, ht⟩ | ⟨b, v, rfl, rfl⟩ | ⟨-, rfl⟩ | ⟨-, rfl⟩ := perform_next h
  · rw [exec_frame hx]
    rfl
  · rw [ht]
    rfl
  · rfl
  · rw [ht]
    rfl
  · have hab : b ≠ a := by
      rintro rfl
      exact he v rfl
    exact (byteAt_setByte hs.mem b v a).trans (if_neg hab)
  · exact engineTurn_other hs ha
  · rw [byteAt_resetStep hs.mem fun hb => req_le_two_pow (width_le_of_busy hs.status hb)]
    refine if_neg ?_
    rintro ⟨hb, hout⟩
    simp [hb, hout] at ha

/-- Settles O44: the engine and reset touch the output range of an operation in progress only, and the host its own address. -/
theorem nothingWritesOutsideTheOutputRange : Obligations.NothingWritesOutsideTheOutputRange := by
  intro s t a hs h he ha
  rw [step_eq_perform] at h
  exact perform_other h (hs.withPending _) he ha

/-! ### The invariants together -/

theorem perform_inv {e : Event} {s t : State} (h : perform e s = .next t) (hs : s.Inv) : t.Inv :=
  ⟨perform_statusInv h hs.status, perform_engineInv h hs.status hs.engine, perform_packedInv h hs,
    perform_portInv h hs.status hs.engine hs.port hs.mem, perform_windowInv h hs.window, perform_memInv h hs.mem⟩

theorem step_inv {s t : State} (h : step s = .next t) (hs : s.Inv) : t.Inv :=
  perform_inv (step_eq_perform s ▸ h) (hs.withPending _)

/-- While BUSY = 0 only the status and memory invariants ask anything of a state. -/
theorem inv_of_idle {s : State} (hb : s.status.busy = false) (hs : s.StatusInv) (hm : s.MemInv) : s.Inv where
  status := hs
  engine := fun h => Bool.noConfusion (hb.symm.trans h)
  packed := fun h => Bool.noConfusion (hb.symm.trans h)
  port := fun h => Bool.noConfusion (hb.symm.trans h)
  window := fun h => Bool.noConfusion (hb.symm.trans h)
  mem := hm

/-- Settles O38: after reset BUSY, ERR and RESULT are 0. -/
theorem resetMeetsEveryInvariant : Obligations.ResetMeetsEveryInvariant := by
  intro p m l hm
  refine inv_of_idle rfl ?_ hm
  simp [State.StatusInv, State.reset]

end Sys2Proof.Machine
end

section
/-! PROOFS. Whole operations (41_datapath.md R86 to R91): the FINISH step of any operation in progress, the RUN steps that lead
to it, and the operation from PACK to DONE. -/

namespace Sys2Proof.Machine

/-! ### The FINISH step -/

theorem finishStep_of_flush {s u : State} (hp : s.phase = some .finish) (hu : s.flush = some u) :
    s.engineStep = some u.complete := by
  obtain ⟨hb, hi⟩ := phase_eq_finish.1 hp
  rw [engineStep_finish hb hi, State.finishStep, hu, Option.map_some]

/-- Everything the FINISH step of an operation in progress leaves (41_datapath.md R84 to R87, 20_memory.md R43, R44, R56,
R57). -/
structure Finished (s t : State) : Prop where
  inAddr : t.inAddr = s.inAddr
  inCount : t.inCount = s.inCount
  outAddr : t.outAddr = s.outAddr
  width : t.width = s.width
  status : t.status = { busy := false, done := true, err := none }
  result : t.result.toNat = s.req
  reads : portReads t.portLog = (List.range s.inCount.toNat).map s.inputAddr
  writes : portWrites t.portLog = (List.range s.req).map s.outputAddr
  other : ∀ a, s.inOutput a = false → t.byteAt a = s.byteAt a
  closed : s.outputOpen = false → ∀ k < s.req, s.holdsOutputByte t k
  free : s.outputOpen = true → ∀ a, s.inOutput a = true → t.byteAt a = Config.freeByte s.draws a

theorem engineStep_finished {s t : State} (hs : s.Inv) (hp : s.phase = some .finish) (h : s.engineStep = some t) :
    Finished s t := by
  have hother := fun a ha => engineStep_other (a := a) hs h ha
  obtain ⟨hb, hi⟩ := phase_eq_finish.1 hp
  have hw := width_le_of_busy hs.status hb
  obtain ⟨hreads, hwrites⟩ := hs.port hb
  rw [engineStep_finish hb hi] at h
  obtain ⟨u, hu, rfl⟩ := finishStep_some h
  obtain ⟨hframe, hreq, hm, hru, hwu, -, hbytes⟩ := flush_spec hb hi hw hs.engine hs.mem hu
  have hopen : u.outputOpen = s.outputOpen := flush_outputOpen hu
  have hrange : u.inOutput = s.inOutput := by rw [hframe]; rfl
  have hdraws : u.draws = s.draws := by rw [hframe]
  have hlen : u.req ≤ 2 ^ 32 := by rw [hframe]; exact req_le_two_pow hw
  have hbyte := byteAt_complete hm hlen
  rw [hopen, hrange, hdraws] at hbyte
  refine ⟨by rw [hframe]; rfl, by rw [hframe]; rfl, by rw [hframe]; rfl, by rw [hframe]; rfl, rfl, hreq, ?_, hwu hwrites,
    hother, fun ho k hk q hq => ?_, fun ho a ha => ?_⟩
  · rw [← hi, ← hreads]
    exact hru
  · rw [hbyte, if_neg (by simp [ho])]
    exact hbytes ((placed_iff hb hs.engine).2 (hs.packed hb ho)) k hk q hq
  · rw [hbyte, if_pos ⟨ho, ha⟩]

/-- The output function after the step is that before it: a closed output leaves the input bytes alone. -/
theorem outputBit_of_finished {s t : State} (h : Finished s t) (ho : s.outputOpen = false) : t.outputBit = s.outputBit :=
  outputBit_congr h.inAddr h.inCount h.width fun a hin => h.other a (inOutput_eq_false_of_inInput ho hin)

theorem holdsOutputByte_congr {s t u : State} {k : Nat} (ha : t.outAddr = s.outAddr) (hf : t.outputBit = s.outputBit)
    (h : s.holdsOutputByte u k) : t.holdsOutputByte u k := by
  intro q hq
  rw [State.outputAddr, ha, hf]
  exact h q hq

/-- Settles O58: FINISH is enabled where its flush is, and leaves what `Finished` says. -/
theorem finishLeavesTheOutputFunction : Obligations.FinishLeavesTheOutputFunction := by
  intro s hs hp hadm
  obtain ⟨u, hu⟩ := flush_isSome hadm
  have h := finishStep_of_flush hp hu
  have hf := engineStep_finished hs hp h
  refine ⟨u.complete, h, hf.status, hf.result, hf.other, fun hint hdis k hk => ?_, fun ho => ?_⟩
  · have hclosed := outputOpen_eq_false hint hdis
    have hk' := hf.closed hclosed k hk
    exact ⟨hk', holdsOutputByte_congr hf.outAddr (outputBit_of_finished hf hclosed) hk'⟩
  · exact hf.free (outputOpen_iff.2 ho.symm)

/-- Settles O57: the record that the invariants give before FINISH, with the flush; an error completion makes no access. -/
theorem eachByteIsAccessedExactlyOnce : Obligations.EachByteIsAccessedExactlyOnce := by
  refine ⟨fun s t hs hp h => ?_, fun s t h herr => ?_⟩
  · have hf := engineStep_finished hs hp h
    exact ⟨hf.reads, hf.writes⟩
  · obtain rfl | ⟨-, ⟨-, rfl⟩ | ⟨-, -, rfl⟩ | ⟨-, -, -, rfl⟩ | ⟨-, -, -, -, rfl⟩⟩ := exec_next h
    · exact ⟨rfl, rfl⟩
    · exact ⟨rfl, rfl⟩
    · exact ⟨rfl, rfl⟩
    · exact ⟨rfl, rfl⟩
    · exact absurd rfl herr

/-! ### The RUN steps -/

/-- The machine goes from `s` to `u` in `n` RUN steps of the operation in progress. -/
structure RunsTo (n : Nat) (s u : State) : Prop where
  run : runSteps n s = .next u
  inv : u.Inv
  frame : u = { s with mem := u.mem, portLog := u.portLog, engine := u.engine }
  idx : u.engine.idx.toNat = s.engine.idx.toNat + n
  other : ∀ a, s.inOutput a = false → u.byteAt a = s.byteAt a

theorem runsTo_zero {s : State} (hs : s.Inv) : RunsTo 0 s s := ⟨rfl, hs, rfl, rfl, fun _ _ => rfl⟩

theorem runSteps_snoc {n : Nat} {s u t : State} (hu : runSteps n s = .next u) (ht : step u = .next t) :
    runSteps (n + 1) s = .next t := by
  rw [runSteps_add hu, runSteps_one ht]

/-- 41_datapath.md R91: while symbols remain the next step is a RUN step, which reads one of them. -/
theorem runsTo_succ {n : Nat} {s u : State} (hb : s.status.busy = true) (hp : s.pending = []) (ha : s.AllAdmitted)
    (hu : RunsTo n s u) (hn : u.engine.idx.toNat < u.inCount.toNat) : ∃ t, RunsTo (n + 1) s t := by
  have hframe := hu.frame
  have hbu : u.status.busy = true := by rw [hframe]; exact hb
  have hpu : u.pending = [] := by rw [hframe]; exact hp
  have hau : u.AllAdmitted := by rw [hframe]; exact ha
  have hw := width_le_of_busy hu.inv.status hbu
  obtain ⟨t, ht⟩ := runStep_isSome hbu hn hw hu.inv.engine hau
  obtain ⟨hft, hidx, -, -, -, hother, -⟩ := runStep_spec hbu hn hw hu.inv.engine hu.inv.port hu.inv.mem ht
  have hstep : step u = .next t := step_of_engineStep hpu ((engineStep_run hbu hn).trans ht)
  refine ⟨t, runSteps_snoc hu.run hstep, step_inv hstep hu.inv, ?_, ?_, fun a hout => ?_⟩
  · rw [hft, hframe]
  · rw [hidx, hu.idx, Nat.add_assoc]
  · exact (hother a (by rw [hframe]; exact hout)).trans (hu.other a hout)

theorem exists_runsTo {s : State} (hs : s.Inv) (hb : s.status.busy = true) (hp : s.pending = []) (ha : s.AllAdmitted) :
    ∀ n ≤ s.inCount.toNat - s.engine.idx.toNat, ∃ u, RunsTo n s u := by
  intro n hn
  induction n with
  | zero => exact ⟨s, runsTo_zero hs⟩
  | succ n ih =>
    obtain ⟨u, hu⟩ := ih (Nat.le_of_succ_le hn)
    have hidx := hu.idx
    have hcount : u.inCount = s.inCount := by rw [hu.frame]
    exact runsTo_succ hb hp ha hu (by rw [hcount]; omega)

/-- 41_datapath.md R91: after the remaining RUN steps the operation is in FINISH, and one step more completes it. -/
theorem operation_completes {s : State} (hs : s.Inv) (hb : s.status.busy = true) (hp : s.pending = [])
    (ha : s.AllAdmitted) :
    ∃ u t, RunsTo (s.inCount.toNat - s.engine.idx.toNat) s u ∧ Finished u t ∧
      runSteps (s.inCount.toNat - s.engine.idx.toNat + 1) s = .next t := by
  obtain ⟨u, hu⟩ := exists_runsTo hs hb hp ha _ le_rfl
  have hframe := hu.frame
  obtain ⟨hle, -⟩ := hs.engine hb
  have hidx := hu.idx
  have hbu : u.status.busy = true := by rw [hframe]; exact hb
  have hi : u.engine.idx = u.inCount := BitVec.eq_of_toNat_eq (by
    rw [hidx, show u.inCount = s.inCount by rw [hframe]]
    omega)
  have hphase := phase_eq_finish.2 ⟨hbu, hi⟩
  obtain ⟨t, ht⟩ := finishStep_isSome hbu hu.inv.engine (by rw [hframe]; exact ha)
  have hstep := (engineStep_finish hbu hi).trans ht
  exact ⟨u, t, hu, engineStep_finished hu.inv hphase hstep,
    runSteps_snoc hu.run (step_of_engineStep (by rw [hframe]; exact hp) hstep)⟩

theorem RunsTo.req {n : Nat} {s u : State} (h : RunsTo n s u) : u.req = s.req := by rw [h.frame]; rfl

theorem RunsTo.inOutput {n : Nat} {s u : State} (h : RunsTo n s u) : u.inOutput = s.inOutput := by rw [h.frame]; rfl

theorem RunsTo.outputOpen {n : Nat} {s u : State} (h : RunsTo n s u) : u.outputOpen = s.outputOpen := by
  rw [h.frame]; rfl

/-- While the output is closed the RUN steps leave the output function as it is. -/
theorem RunsTo.outputBit {n : Nat} {s u : State} (h : RunsTo n s u) (ho : s.outputOpen = false) :
    u.outputBit = s.outputBit :=
  outputBit_congr (by rw [h.frame]) (by rw [h.frame]) (by rw [h.frame]) fun a ha =>
    h.other a (inOutput_eq_false_of_inInput ho ha)

/-- No byte outside the output range changes from the state in progress to completion. -/
theorem RunsTo.other_finished {n : Nat} {s u t : State} (h : RunsTo n s u) (hf : Finished u t) {a : Word}
    (ha : s.inOutput a = false) : t.byteAt a = s.byteAt a :=
  (hf.other a (by rw [h.inOutput]; exact ha)).trans (h.other a ha)

/-- Settles O55: by the remaining RUN steps and the FINISH step, none of which asks anything of the ranges. -/
theorem operationCompletesOnTime : Obligations.OperationCompletesOnTime := by
  intro s hs hb hp ha
  refine ⟨fun n hn => ?_, ?_⟩
  · obtain ⟨u, hu⟩ := exists_runsTo hs hb hp ha n hn
    exact ⟨u, hu.run, by rw [hu.frame]; exact hb, hu.idx⟩
  · obtain ⟨u, t, hu, hf, ht⟩ := operation_completes hs hb hp ha
    exact ⟨t, ht, hf.status, hf.result.trans hu.req⟩

/-- Settles O56: an open output is made free at FINISH, by the draw that FINISH makes. -/
theorem overlapLeavesOnlyTheOutputOpen : Obligations.OverlapLeavesOnlyTheOutputOpen := by
  intro s hs hb hp ha ho
  obtain ⟨u, t, hu, hf, ht⟩ := operation_completes hs hb hp ha
  refine ⟨t, ht, hf.status, hf.result.trans hu.req, fun a hout => hu.other_finished hf hout, u.draws, fun a hout => ?_⟩
  exact hf.free (hu.outputOpen.trans (outputOpen_iff.2 ho)) a (by rw [hu.inOutput]; exact hout)

/-! ### From PACK to DONE -/

/-- The step of a pending CMD write of PACK that passes every check (40_pack.md R74). -/
theorem step_pack {s : State} (hb : s.status.busy = false)
    (hp : s.pending = [.access (.write 0x00#6 .word 0x00000001#32)]) (hw : s.widthLegal = true)
    (hc : s.capacityEnough = true) (ht : ¬s.TargetsWindow) :
    step s = .next (State.accept (State.acknowledge { s with pending := [] })) := by
  have hturn : s.turn = .access (.write 0x00#6 .word (encode .pack)) := by rw [State.turn, hp]; rfl
  rw [step_eq_perform, hturn, hp]
  exact (hostAccess_write_encode .pack _).trans
    (exec_pack_of_accepted (s := { s with pending := [] }) hb hw hc (mt selfTargets_iff.1 ht))

/-- An operation just accepted meets the invariants. -/
theorem accept_inv {s : State} (hw : s.widthLegal = true) (hc : s.capacityEnough = true)
    (ht : ¬s.TargetsWindow) (hm : s.MemInv) : s.acknowledge.accept.Inv where
  status := by
    obtain ⟨hw1, hw8⟩ := widthLegal_iff.1 hw
    exact ⟨fun _ => ⟨rfl, rfl, rfl⟩, fun h => absurd rfl h, fun _ => ⟨hw1, hw8, capacityEnough_iff.1 hc⟩,
      fun h => absurd rfl h⟩
  engine := accept_engineInv _
  packed := accept_packedInv _
  port := accept_portInv _
  window := fun _ => ht
  mem := hm

/-- The premises of a whole operation that succeeds with a closed output (41_datapath.md R86, R91). -/
structure ReadyToPack (s : State) : Prop where
  idle : s.status.busy = false
  pending : s.pending = [.access (.write 0x00#6 .word 0x00000001#32)]
  mem : s.MemInv
  width_pos : 1 ≤ s.width.toNat
  width_le : s.width.toNat ≤ 8
  capacity : s.req ≤ s.outCap.toNat
  admitted : s.AllAdmitted
  window : ¬s.TargetsWindow
  disjoint : ∀ a, ¬(s.inInput a = true ∧ s.inOutput a = true)

/-- A whole operation: PACK, N RUN steps and FINISH leave the output function of the input (41_datapath.md R86, R87). -/
theorem ReadyToPack.packs {s : State} (h : ReadyToPack s) :
    ∃ t, runSteps (s.inCount.toNat + 2) s = .next t ∧
      t.status = { busy := false, done := true, err := none } ∧ t.result.toNat = s.req ∧
      (∀ k < s.req, s.holdsOutputByte t k) ∧ ∀ a, s.inOutput a = false → t.byteAt a = s.byteAt a := by
  have hw := widthLegal_iff.2 ⟨h.width_pos, h.width_le⟩
  have hc := capacityEnough_iff.2 h.capacity
  have hpack := step_pack h.idle h.pending hw hc h.window
  have hinv := accept_inv (s := { s with pending := [] }) hw hc h.window h.mem
  obtain ⟨u, t, hu, hf, ht⟩ := operation_completes hinv rfl rfl h.admitted
  have hclosed : (State.accept (State.acknowledge { s with pending := [] })).outputOpen = false :=
    outputOpen_eq_false rfl h.disjoint
  have hbit := hu.outputBit hclosed
  refine ⟨t, (runSteps_succ_of_next hpack).trans ht, hf.status, hf.result.trans hu.req, fun k hk => ?_,
    fun a ha => hu.other_finished hf ha⟩
  exact holdsOutputByte_congr (by rw [hu.frame]; rfl) hbit.symm
    (hf.closed (hu.outputOpen.trans hclosed) k (by rw [hu.req]; exact hk))

/-- The output function on the bytes of memory (41_datapath.md R86). -/
theorem outputBit_eq {s : State} (hw : 1 ≤ s.width.toNat) (p : Nat) :
    s.outputBit p = (decide (p < s.inCount.toNat * s.width.toNat) &&
      (s.byteAt (s.inAddr + BitVec.ofNat 32 (p / s.width.toNat))).getLsbD (s.width.toNat - 1 - p % s.width.toNat)) := by
  have hlt : s.width.toNat - 1 - p % s.width.toNat < s.width.toNat := by omega
  rw [State.outputBit, State.streamBit, State.symbol, getLsbD_maskSymbol, decide_eq_true hlt, Bool.true_and, State.inputAddr]

/-- Settles O51: the whole operation, with the output function written on the bytes of the input. -/
theorem operationPacksTheStream : Obligations.OperationPacksTheStream := by
  intro s hb hp hm hw1 hw8 hc ha ht hd
  obtain ⟨t, hrun, hstatus, hresult, hbytes, hother⟩ := ReadyToPack.packs ⟨hb, hp, hm, hw1, hw8, hc, ha, ht, hd⟩
  exact ⟨t, hrun, hstatus, hresult, fun k hk q hq => (hbytes k hk q hq).trans (outputBit_eq hw1 _), hother⟩

/-! ### Unpacking -/

/-- The bits of a number below 2^w, MSB first, as the test oracle sums them. -/
theorem sum_bits_eq_mod (v : Byte) (w : Nat) :
    ((List.range w).map fun i => (v.getLsbD (w - 1 - i)).toNat <<< (w - 1 - i)).sum = v.toNat % 2 ^ w := by
  induction w with
  | zero => simp [Nat.mod_one]
  | succ w ih =>
    have htail : ((List.range w).map fun i => (v.getLsbD (w + 1 - 1 - (i + 1))).toNat <<< (w + 1 - 1 - (i + 1))).sum =
        v.toNat % 2 ^ w := by
      rw [← ih]
      simp only [Nat.add_sub_cancel, Nat.sub_sub, Nat.add_comm 1]
    rw [List.range_succ_eq_map, List.map_cons, List.map_map, List.sum_cons]
    simp only [Function.comp_def, Nat.succ_eq_add_one]
    rw [htail, Nat.mod_pow_succ, ← Nat.toNat_testBit, Nat.shiftLeft_eq, Nat.mul_comm, Nat.add_comm]
    rfl

/-- A bit of the stream stands in the output byte that its number names (41_datapath.md R86). -/
theorem outputBit_in_memory {s t : State} (h : ∀ k < s.req, s.holdsOutputByte t k) {p : Nat}
    (hp : p < s.inCount.toNat * s.width.toNat) :
    (t.byteAt (s.outAddr + BitVec.ofNat 32 (p / 8))).getLsbD (7 - p % 8) = s.outputBit p := by
  have hk : p / 8 < s.req := by
    by_contra hle
    have := req_le_iff.1 (not_lt.1 hle)
    omega
  have hbit := h (p / 8) hk (p % 8) (Nat.mod_lt _ (by omega))
  rwa [Nat.div_add_mod] at hbit

/-- Stream bit `i` of symbol `j` is one of the operation. -/
theorem bit_of_symbol_lt {s : State} {j i : Nat} (hj : j < s.inCount.toNat) (hi : i < s.width.toNat) :
    j * s.width.toNat + i < s.inCount.toNat * s.width.toNat :=
  calc j * s.width.toNat + i < (j + 1) * s.width.toNat := by rw [Nat.succ_mul]; omega
    _ ≤ s.inCount.toNat * s.width.toNat := Nat.mul_le_mul_right _ hj

/-- Settles O52: the W output bits of symbol j are the low bits of the symbol, MSB first. -/
theorem unpackingRecoversTheSymbols : Obligations.UnpackingRecoversTheSymbols := by
  intro s hb hp hm hw1 hw8 hc ha ht hd
  obtain ⟨t, hrun, -, -, hbytes, -⟩ := ReadyToPack.packs ⟨hb, hp, hm, hw1, hw8, hc, ha, ht, hd⟩
  refine ⟨t, hrun, fun j hj => ?_⟩
  have hbit : ∀ i ∈ List.range s.width.toNat,
      ((t.byteAt (s.outAddr + BitVec.ofNat 32 ((j * s.width.toNat + i) / 8))).getLsbD
          (7 - (j * s.width.toNat + i) % 8)).toNat <<< (s.width.toNat - 1 - i) =
        ((s.symbol j).getLsbD (s.width.toNat - 1 - i)).toNat <<< (s.width.toNat - 1 - i) := by
    intro i hi
    have hi := List.mem_range.1 hi
    rw [outputBit_in_memory hbytes (bit_of_symbol_lt hj hi), outputBit_of_symbol hj hi]
  rw [List.map_congr_left hbit, sum_bits_eq_mod, State.symbol, toNat_maskSymbol_mod, State.inputAddr]

/-- Settles O53: with W = 8 the bits of output byte k are those of symbol k, and REQ is N. -/
theorem widthEightCopiesTheInput : Obligations.WidthEightCopiesTheInput := by
  intro s hb hp hm hw hc ha ht hd
  have hw8 : s.width.toNat = 8 := by rw [hw]; rfl
  have hreq : s.req = s.inCount.toNat := by rw [req_eq, hw8]; omega
  obtain ⟨t, hrun, -, hresult, hbytes, -⟩ :=
    ReadyToPack.packs ⟨hb, hp, hm, by omega, by omega, by omega, ha, ht, hd⟩
  refine ⟨t, hrun, BitVec.eq_of_toNat_eq (hresult.trans hreq), fun k hk => BitVec.eq_of_getLsbD_eq fun i hi => ?_⟩
  have hbit := hbytes k (by omega) (7 - i) (by omega)
  have hsym := outputBit_of_symbol (s := s) (i := 7 - i) hk (by omega)
  rw [hw8, Nat.mul_comm, State.symbol, getLsbD_maskSymbol, show 8 - 1 - (7 - i) = i by omega] at hsym
  rw [show 7 - (7 - i) = i by omega, hsym, hw8, decide_eq_true hi, Bool.true_and] at hbit
  exact hbit

/-! ### The empty input -/

theorem req_of_empty {s : State} (h0 : s.inCount = 0#32) : s.req = 0 := by
  rw [req_eq, h0]
  simp

/-- An operation of no symbol names no address. -/
theorem ranges_of_empty {s : State} (h0 : s.inCount = 0#32) (a : Word) : s.inInput a = false ∧ s.inOutput a = false := by
  rw [State.inInput, State.inOutput, req_of_empty h0, h0]
  exact ⟨rfl, rfl⟩

/-- Settles O54: PACK accepts, since empty ranges need no room and meet nothing, and FINISH has nothing to flush. -/
theorem emptyInputSucceeds : Obligations.EmptyInputSucceeds := by
  intro s hb hp hw1 hw8 h0
  have hwindow : ¬s.TargetsWindow := by
    rintro ⟨-, a, -, ha⟩
    simp [ranges_of_empty h0 a] at ha
  have hpack := step_pack hb hp (widthLegal_iff.2 ⟨hw1, hw8⟩)
    (capacityEnough_iff.2 (by rw [req_of_empty h0]; exact Nat.zero_le _)) hwindow
  have hphase : (State.accept (State.acknowledge { s with pending := [] })).phase = some .finish :=
    phase_eq_finish.2 ⟨rfl, h0.symm⟩
  have hclosed : (State.accept (State.acknowledge { s with pending := [] })).outputOpen = false :=
    outputOpen_eq_false rfl fun a ha => by
      have hin : s.inInput a = true := ha.1
      rw [(ranges_of_empty h0 a).1] at hin
      cases hin
  have hstep := step_of_engineStep rfl (finishStep_of_flush hphase rfl)
  refine ⟨_, (runSteps_succ_of_next hpack).trans (runSteps_one hstep), rfl, rfl, fun a => ?_⟩
  exact byteAt_complete_of_closed hclosed a

end Sys2Proof.Machine
end

section
/-! PROOFS. The engine's step: the phases (10_state.md R37), where it is stuck (20_memory.md R42), and what it does not depend
on (41_datapath.md R85, R92). -/

namespace Sys2Proof.Machine

/-! ### The phases -/

theorem phase_ne_none {s : State} (h : s.EngineInv) : s.phase ≠ none := by
  cases hb : s.status.busy with
  | false => simp [phase_eq_idle.2 hb]
  | true =>
    obtain ⟨hle, -⟩ := h hb
    obtain hlt | heq := Nat.lt_or_eq_of_le hle
    · simp [phase_eq_run.2 ⟨hb, hlt⟩]
    · simp [phase_eq_finish.2 ⟨hb, BitVec.eq_of_toNat_eq heq⟩]

/-- The engine's turn where it has no step. -/
theorem engineTurn_of_none {s : State} (h : s.engineStep = none) : s.engineTurn = s := by
  rw [State.engineTurn, h, Option.getD_none]

/-- A step with no turn pending is the engine's turn. -/
theorem step_of_empty {s : State} (hp : s.pending = []) : step s = .next s.engineTurn := by
  simp only [step, nextTurn, hp]

/-- Settles O31: the phases are those of `State.phase`, of which an idle engine has no step. -/
theorem phaseFollowsTheStatus : Obligations.PhaseFollowsTheStatus := by
  intro s
  refine ⟨phase_eq_idle, phase_eq_run, phase_eq_finish, phase_ne_none, fun hidle => ?_⟩
  have hnone := engineStep_idle (phase_eq_idle.1 hidle)
  exact ⟨hnone, fun hp => (step_of_empty hp).trans (by rw [engineTurn_of_none hnone])⟩

/-! ### Accesses that are not admitted -/

/-- A loop that must fill a byte has no effect where that byte's write is not admitted. -/
theorem putBits_none {v : Byte} {n : Nat} {s : State} (hn : s.engine.bitpos.toNat < n)
    (ha : portAdmits s.platform (s.outAddr + s.engine.oidx) .write = false) : State.putBits v n s = none := by
  induction n generalizing s with
  | zero => omega
  | succ n ih =>
    rw [putBits_succ]
    by_cases h0 : s.engine.bitpos = 0#3
    · rw [State.putBit, if_pos h0, portWrite_none ha, Option.map_none, Option.bind_none]
    · have hpred := bitpos_pred h0
      rw [putBit_of_not_last h0, Option.bind_some]
      exact ih (by simp only; omega) ha

theorem runStep_none_of_read {s : State} (ha : portAdmits s.platform (s.inAddr + s.engine.idx) .read = false) :
    s.runStep = none := by
  rw [State.runStep, portRead_none ha, Option.bind_none]

theorem runStep_none_of_write {s : State} (hn : s.engine.bitpos.toNat < s.width.toNat)
    (ha : portAdmits s.platform (s.outAddr + s.engine.oidx) .write = false) : s.runStep = none := by
  cases hr : portAdmits s.platform (s.inAddr + s.engine.idx) .read with
  | false => exact runStep_none_of_read hr
  | true => rw [State.runStep, portRead_of_admit hr, Option.bind_some, putBits_none (by exact hn) (by exact ha), Option.map_none]

theorem finishStep_none {s : State} (h7 : s.engine.bitpos ≠ 7#3)
    (ha : portAdmits s.platform (s.outAddr + s.engine.oidx) .write = false) : s.finishStep = none := by
  rw [State.finishStep, State.flush, if_neg h7, portWrite_none ha, Option.map_none, Option.map_none]

/-- Settles O29: the RUN or FINISH step is as a whole none, and so the engine's turn keeps the state. -/
theorem engineIsStuckWhereNotAdmitted : Obligations.EngineIsStuckWhereNotAdmitted := by
  intro s hb h
  have hnone : s.engineStep = none := by
    obtain ⟨hi, ha⟩ | ⟨hi, hn, ha⟩ | ⟨hi, h7, ha⟩ := h
    · rw [engineStep_run hb hi, runStep_none_of_read ha]
    · rw [engineStep_run hb hi, runStep_none_of_write hn ha]
    · rw [engineStep_finish hb hi, finishStep_none h7 ha]
  exact ⟨hnone, congrArg Host.Outcome.next (engineTurn_of_none hnone)⟩

/-! ### Two runs side by side -/

/-- The loop of R82 keeps a relation between two states that PutBit keeps, bit by bit. -/
theorem putBits_related {R : State → State → Prop} {v w : Byte}
    (hR : ∀ n s u t, R s u → s.putBit (v.getLsbD n) = some t → ∃ x, u.putBit (w.getLsbD n) = some x ∧ R t x)
    {n : Nat} {s u t : State} (h : R s u) (ht : State.putBits v n s = some t) :
    ∃ x, State.putBits w n u = some x ∧ R t x := by
  induction n generalizing s u with
  | zero => cases ht; exact ⟨u, rfl, h⟩
  | succ n ih =>
    rw [putBits_succ] at ht
    obtain ⟨s', hs', ht⟩ := Option.bind_eq_some_iff.1 ht
    obtain ⟨u', hu', h'⟩ := hR n s u s' h hs'
    obtain ⟨x, hx, hxt⟩ := ih h' ht
    exact ⟨x, by rw [putBits_succ, hu', Option.bind_some, hx], hxt⟩

/-- `u` is `s` with another memory. -/
def SameButMemory (s u : State) : Prop := u = { s with mem := u.mem }

theorem SameButMemory.exists_mem {s u : State} (h : SameButMemory s u) : ∃ m, u = { s with mem := m } := ⟨u.mem, h⟩

/-- `u` has the platform, the output address, the cursor and the port's addresses of `s`: what the sequence of steps depends
on (41_datapath.md R92). -/
structure SameSequence (s u : State) : Prop where
  platform : u.platform = s.platform
  outAddr : u.outAddr = s.outAddr
  bitpos : u.engine.bitpos = s.engine.bitpos
  idx : u.engine.idx = s.engine.idx
  oidx : u.engine.oidx = s.engine.oidx
  reads : portReads u.portLog = portReads s.portLog
  writes : portWrites u.portLog = portWrites s.portLog

theorem putBit_sameButMemory {s u t : State} {b : Bool} (h : SameButMemory s u) (ht : s.putBit b = some t) :
    ∃ x, u.putBit b = some x ∧ SameButMemory t x := by
  obtain ⟨m, rfl⟩ := h.exists_mem
  obtain ⟨h0, ha, rfl⟩ | ⟨h0, rfl⟩ := putBit_some ht
  · refine ⟨_, putBit_of_last (s := { s with mem := m }) h0 ha b, ?_⟩
    rw [← h0]
    rfl
  · exact ⟨_, putBit_of_not_last (s := { s with mem := m }) h0 b, rfl⟩

theorem putBit_sameSequence {s u t : State} {b c : Bool} (h : SameSequence s u) (ht : s.putBit b = some t) :
    ∃ x, u.putBit c = some x ∧ SameSequence t x := by
  obtain ⟨h0, ha, rfl⟩ | ⟨h0, rfl⟩ := putBit_some ht
  · rw [← h.bitpos] at h0
    rw [← h.platform, ← h.outAddr, ← h.oidx] at ha
    refine ⟨_, putBit_of_last h0 ha c, h.platform, h.outAddr, rfl, h.idx, congrArg (· + 1#32) h.oidx, ?_, ?_⟩
    · simp [h.reads]
    · simp [h.writes, h.outAddr, h.oidx]
  · rw [← h.bitpos] at h0
    exact ⟨_, putBit_of_not_last h0 c, h.platform, h.outAddr, congrArg (· - 1#3) h.bitpos, h.idx, h.oidx, h.reads, h.writes⟩

/-! ### The engine's step with another memory -/

theorem runStep_sameButMemory {s t : State} (m : Memory) (h : s.runStep = some t)
    (hsym : State.byteAt { s with mem := m } (s.inAddr + s.engine.idx) = s.byteAt (s.inAddr + s.engine.idx)) :
    ∃ x, State.runStep { s with mem := m } = some x ∧ SameButMemory t x := by
  obtain ⟨ha, u, hu, rfl⟩ := runStep_some h
  obtain ⟨x, hx, hux⟩ := putBits_related (fun _ _ _ _ => putBit_sameButMemory)
    (u := { s with mem := m, portLog := s.portLog ++ [.read (s.inAddr + s.engine.idx)] }) (by exact rfl) hu
  obtain ⟨m', rfl⟩ := hux.exists_mem
  rw [← hsym] at hx
  refine ⟨_, runStep_of_putBits (s := { s with mem := m }) ha hx, ?_⟩
  rw [← (putBits_frame hu).2]
  rfl

theorem runStep_sameSequence {s t : State} (m : Memory) (h : s.runStep = some t) :
    ∃ x, State.runStep { s with mem := m } = some x ∧ SameSequence t x := by
  obtain ⟨ha, u, hu, rfl⟩ := runStep_some h
  obtain ⟨x, hx, hux⟩ := putBits_related (fun _ _ _ _ => putBit_sameSequence)
    (w := maskSymbol s.width.toNat (State.byteAt { s with mem := m } (s.inAddr + s.engine.idx)))
    (u := { s with mem := m, portLog := s.portLog ++ [.read (s.inAddr + s.engine.idx)] })
    (by exact ⟨rfl, rfl, rfl, rfl, rfl, rfl, rfl⟩) hu
  refine ⟨_, runStep_of_putBits (s := { s with mem := m }) ha hx, hux.platform, hux.outAddr, hux.bitpos, ?_, hux.oidx,
    hux.reads, hux.writes⟩
  simp only [hux.idx, (putBits_frame hu).2]

theorem flush_of_full {s : State} (h7 : s.engine.bitpos = 7#3) : s.flush = some s := by
  rw [State.flush, if_pos h7]

theorem flush_of_partial {s : State} (h7 : s.engine.bitpos ≠ 7#3)
    (ha : portAdmits s.platform (s.outAddr + s.engine.oidx) .write = true) :
    s.flush = some { s.setByte (s.outAddr + s.engine.oidx) s.engine.acc with
      portLog := s.portLog ++ [.write (s.outAddr + s.engine.oidx) s.engine.acc]
      engine := { s.engine with oidx := s.engine.oidx + 1#32 } } := by
  rw [State.flush, if_neg h7, portWrite_of_admit ha]
  rfl

theorem flush_sameButMemory {s t : State} (m : Memory) (h : s.flush = some t) :
    ∃ x, State.flush { s with mem := m } = some x ∧ SameButMemory t x := by
  obtain ⟨h7, rfl⟩ | ⟨h7, ha, rfl⟩ := flush_some h
  · exact ⟨_, flush_of_full (s := { t with mem := m }) h7, rfl⟩
  · exact ⟨_, flush_of_partial (s := { s with mem := m }) h7 ha, rfl⟩

theorem finishStep_sameButMemory {s t : State} (m : Memory) (h : s.finishStep = some t) :
    ∃ x, State.finishStep { s with mem := m } = some x ∧ SameButMemory t x := by
  obtain ⟨u, hu, rfl⟩ := finishStep_some h
  obtain ⟨x, hx, hux⟩ := flush_sameButMemory m hu
  obtain ⟨m', rfl⟩ := hux.exists_mem
  exact ⟨State.complete { u with mem := m' }, by rw [State.finishStep, hx, Option.map_some], rfl⟩

/-- 20_memory.md R44, 41_datapath.md R85: the symbol that RUN reads is all that the step takes from memory. -/
theorem engineStep_sameButMemory {s t : State} (m : Memory) (h : s.engineStep = some t)
    (hsym : s.phase = some .run →
      State.byteAt { s with mem := m } (s.inAddr + s.engine.idx) = s.byteAt (s.inAddr + s.engine.idx)) :
    ∃ x, State.engineStep { s with mem := m } = some x ∧ SameButMemory t x := by
  obtain ⟨hb, hi, hr⟩ | ⟨hb, hi, hf⟩ := engineStep_some h
  · rw [engineStep_run (s := { s with mem := m }) hb hi]
    exact runStep_sameButMemory m hr (hsym (phase_eq_run.2 ⟨hb, hi⟩))
  · rw [engineStep_finish (s := { s with mem := m }) hb hi]
    exact finishStep_sameButMemory m hf

/-! ### The obligations -/

/-- Settles O46: the two steps differ in memory only. -/
theorem engineDependsOnlyOnItsSymbol : Obligations.EngineDependsOnlyOnItsSymbol := by
  intro s t m h hsym
  obtain ⟨x, hx, htx⟩ := engineStep_sameButMemory m h hsym
  obtain ⟨m', rfl⟩ := htx.exists_mem
  exact ⟨_, hx, rfl, fun _ => rfl⟩

/-- Settles O45: the sequence of a RUN step is its cursor and addresses; FINISH takes nothing from memory. -/
theorem sequenceDoesNotDependOnData : Obligations.SequenceDoesNotDependOnData := by
  intro s t m h
  obtain ⟨hb, hi, hr⟩ | ⟨hb, hi, -⟩ := engineStep_some h
  · obtain ⟨x, hx, hseq⟩ := runStep_sameSequence m hr
    refine ⟨x, (engineStep_run (s := { s with mem := m }) hb hi).trans hx, ?_, ?_,
      fun _ => ⟨hseq.idx, hseq.oidx, hseq.bitpos⟩, hseq.reads, hseq.writes⟩
    · rw [runStep_frame hx, runStep_frame hr]
    · rw [runStep_frame hx, runStep_frame hr]
  · have hfinish : s.phase = some .finish := phase_eq_finish.2 ⟨hb, hi⟩
    obtain ⟨x, hx, htx⟩ := engineStep_sameButMemory m h fun hrun => by rw [hfinish] at hrun; cases hrun
    obtain ⟨m', rfl⟩ := htx.exists_mem
    exact ⟨_, hx, rfl, rfl, fun _ => ⟨rfl, rfl, rfl⟩, rfl, rfl⟩

end Sys2Proof.Machine
end

section
/-! PROOFS. Encodings and layouts: command words and offsets (30_encoding.md R63, R65) and the STATUS word (10_state.md R26). -/

namespace Sys2Proof

/-! ### Command words and offsets -/

/-- Settles O2: a word decodes to a command exactly when it is that command's word. -/
theorem decodeAndEncodeAgree : Obligations.DecodeAndEncodeAgree := by
  intro w i
  exact ⟨decode_eq_ok_iff, decode_encode i⟩

/-- Settles O3: the six words, evaluated. -/
theorem sampleCommandWordsDecode : Obligations.SampleCommandWordsDecode := by
  unfold Obligations.SampleCommandWordsDecode
  decide

theorem Reg.ofOffset_offset (r : Reg) : Reg.ofOffset r.offset = r := by
  cases r with
  | reserved k => revert k; decide
  | _ => rfl

theorem Reg.offset_ofOffset : ∀ o : BitVec 6, o.toNat % 4 = 0 → (Reg.ofOffset o).offset = o := by decide

theorem Reg.offsetAligned_offset (r : Reg) : offsetAligned r.offset = true := by
  cases r with
  | reserved k => revert k; decide
  | _ => rfl

/-- Settles O4: the register is chosen by the number in offset[5:2], and `Reg.offset` is the inverse on aligned offsets. -/
theorem offsetsSelectRegisters : Obligations.OffsetsSelectRegisters := by
  refine ⟨fun o => ⟨?_, ?_, ?_, ?_, ?_, ?_, ?_, ?_, ?_, ?_, fun h => ?reserved⟩, Reg.ofOffset_offset, Reg.offset_ofOffset⟩
  case reserved =>
    refine Reg.ofOffset_reserved o ?_
    simp only [BitVec.extractLsb'_toNat, Nat.shiftRight_eq_div_pow] at h
    omega
  all_goals
    intro h
    simp [Reg.ofOffset, h]

end Sys2Proof

namespace Sys2Proof.Machine

/-! ### The STATUS word -/

theorem errCode_ne_three (e : Option ErrorKind) : errCode e ≠ 3#2 := by
  rcases e with _ | e
  · decide
  · cases e <;> decide

/-- 10_state.md R26: BUSY, DONE, the two bits of ERR, and zeros. -/
theorem getLsbD_statusWord (t : Status) (i : Nat) :
    t.word.getLsbD i =
      if i = 0 then t.busy else if i = 1 then t.done else if i < 4 then (errCode t.err).getLsbD (i - 2) else false := by
  change (0#28 ++ errCode t.err ++ BitVec.ofBool t.done ++ BitVec.ofBool t.busy : BitVec (28 + 2 + 1 + 1)).getLsbD i = _
  simp only [BitVec.getLsbD_append, BitVec.getLsbD_ofBool, BitVec.getLsbD_zero]
  grind

theorem statusWord_err (t : Status) : t.word.extractLsb' 2 2 = errCode t.err := by
  apply BitVec.eq_of_getLsbD_eq
  intro i hi
  rw [BitVec.getLsbD_extractLsb', getLsbD_statusWord, if_neg (by omega), if_neg (by omega), if_pos (by omega),
    Nat.add_sub_cancel_left, decide_eq_true hi, Bool.true_and]

theorem statusWord_reserved (t : Status) : t.word.extractLsb' 4 28 = 0#28 := by
  apply BitVec.eq_of_getLsbD_eq
  intro i hi
  rw [BitVec.getLsbD_extractLsb', getLsbD_statusWord, if_neg (by omega), if_neg (by omega), if_neg (by omega),
    Bool.and_false, BitVec.getLsbD_zero]

/-- Settles O20: the word is ERR's code, DONE and BUSY below 28 zero bits. -/
theorem statusWordLayout : Obligations.StatusWordLayout := by
  intro t
  rw [statusWord_err]
  refine ⟨getLsbD_statusWord t 0, getLsbD_statusWord t 1, statusWord_reserved t, fun h => ?_, fun h => ?_, fun h => ?_,
    errCode_ne_three t.err⟩ <;> rw [h] <;> rfl

end Sys2Proof.Machine
end

section
/-! PROOFS. The commands as a whole: when one is refused (20_memory.md R52), and the frame of each (40_pack.md, 42_control.md). -/

namespace Sys2Proof.Machine

/-- Settles O15: with both checks passed, the refusal is `selfTargets`. -/
theorem packThatTargetsTheWindowIsRefused : Obligations.PackThatTargetsTheWindowIsRefused := by
  intro s hb hw hc
  have hw' := widthLegal_iff.2 hw
  have hc' : s.capacityEnough = true := capacityEnough_iff.2 hc
  rw [← selfTargets_iff]
  refine ⟨fun h => ?_, exec_pack_of_selfTargets hb hw' hc'⟩
  obtain ⟨-, -, hst, -⟩ := exec_refused h
  exact hst

/-- Settles O16: a command that answers no next state is refused, and R52 gives the one reason. -/
theorem everyCommandCompletes : Obligations.EveryCommandCompletes := by
  intro i s hwindow
  cases h : exec i s with
  | next t => exact ⟨t, rfl⟩
  | fault r => cases r
  | refused r =>
    obtain ⟨hi, -, hst, -⟩ := exec_refused h
    exact absurd (selfTargets_iff.1 hst) (hwindow hi)

/-- 40_pack.md R74: the engine's registers, the record and the mark move only at an accept. -/
theorem exec_engine_frame {i : Instr} {s t : State} (h : exec i s = .next t) :
    (t.engine = s.engine ∧ t.portLog = s.portLog ∧ t.intruded = s.intruded ∧ t.status.busy = s.status.busy) ∨
      i = .pack ∧ s.status.busy = false ∧ t = s.acknowledge.accept := by
  obtain rfl | ⟨hb, ⟨-, rfl⟩ | ⟨-, -, rfl⟩ | ⟨-, -, -, rfl⟩ | ⟨hi, -, -, -, ht⟩⟩ := exec_next h
  · exact .inl ⟨rfl, rfl, rfl, rfl⟩
  · exact .inl ⟨rfl, rfl, rfl, rfl⟩
  · exact .inl ⟨rfl, rfl, rfl, rfl⟩
  · exact .inl ⟨rfl, rfl, rfl, rfl⟩
  · exact .inr ⟨hi, hb, ht⟩

/-- Settles O17: the frame of every command, and of the accept, which alone starts the engine. -/
theorem commandsLeaveTheRestUnchanged : Obligations.CommandsLeaveTheRestUnchanged := by
  intro i s t h
  have hframe := exec_frame h
  refine ⟨by rw [hframe]; exact ⟨rfl, rfl, rfl, rfl, rfl⟩, by rw [hframe]; exact ⟨rfl, rfl, rfl, rfl, rfl, rfl⟩,
    fun a => by rw [hframe]; rfl, fun hcase => ?_, fun hb hbt => ?_⟩
  · obtain ⟨he, hp, hint, -⟩ | ⟨rfl, hb, rfl⟩ := exec_engine_frame h
    · exact ⟨he, hp, hint⟩
    · simp [hb] at hcase
  · obtain ⟨-, -, -, hbusy⟩ | ⟨-, -, rfl⟩ := exec_engine_frame h
    · rw [hbusy, hb] at hbt
      cases hbt
    · exact ⟨rfl, rfl⟩

end Sys2Proof.Machine
end

section
/-! PROOFS. Turns and steps: the model's schedule (entries 1 and 2) and the loop POLL (30_encoding.md R69). -/

namespace Sys2Proof.Machine

theorem step_of_cons {s : State} {e : Event} {rest : List Event} (hp : s.pending = e :: rest) :
    step s = perform e { s with pending := rest } := by
  simp only [step, nextTurn, hp]

/-- Settles O5: the first pending turn, or the engine's; each kind of turn is its own operation. -/
theorem stepTakesTheNextTurn : Obligations.StepTakesTheNextTurn := by
  intro s
  refine ⟨step_of_empty, fun e rest hp => ?_⟩
  rw [step_of_cons hp]
  refine ⟨?_, ?_, ?_, ?_, ?_⟩
  · rintro a rfl; rfl
  · rintro rfl; rfl
  · rintro rfl; rfl
  · rintro a rfl; rfl
  · rintro a v rfl; rfl

theorem step_queueFirst (s : State) (e : Event) : step (s.queueFirst e) = perform e s := rfl

/-- The turn of a command's own word performs the command. -/
theorem perform_commandEvent (i : Instr) (s : State) : perform (commandEvent (encode i)) s = exec i s :=
  hostAccess_write_encode i s

/-- Settles O6: a CMD write of a command's word, queued by the host or placed by `withFetchWord`. -/
theorem stepRunsTheDecodedCommand : Obligations.StepRunsTheDecodedCommand := by
  refine ⟨fun s d rest i hp hd => ?_, fun s i => ?_⟩
  · rw [step_of_cons hp, decode_eq_ok_iff.1 hd]
    exact hostAccess_write_encode i _
  · have hword : BitVec.ofNat 32 ((encode i).toNat % 2 ^ 32) = encode i := by
      rw [Nat.mod_eq_of_lt (encode i).isLt, BitVec.ofNat_toNat, BitVec.setWidth_eq]
    rw [State.withFetchWord, hword, step_queueFirst, perform_commandEvent]

/-- Settles O25: the POLL's read is that of its register, and the masked word decides whether the loop goes on. -/
theorem pollReadsUntilTheValueAppears : Obligations.PollReadsUntilTheValueAppears := by
  intro s r mask value rest hp
  have hread : hostAccess (.read r.offset .word) { s with pending := rest } =
      .next { s with pending := rest, rdata := s.readReg r } := by
    rw [hostAccess_read (Reg.offsetAligned_offset r), State.readAccess, Reg.ofOffset_offset]
    rfl
  rw [step_of_cons hp, perform, pollTurn, hread]
  by_cases hv : s.readReg r &&& mask = value
  · simp only [hv, if_true]
  · simp only [hv, if_false]

end Sys2Proof.Machine
end

section
/-! PROOFS. The host's own path to memory (20_memory.md R56) and the RESET step (70_reset_and_hazards.md R130, R132). -/

namespace Sys2Proof.Machine

/-! ### Host memory -/

/-- Settles O47: by the two cases of `hostMemRead`. -/
theorem hostMemoryReadReturnsTheByteOrAny : Obligations.HostMemoryReadReturnsTheByteOrAny := by
  intro s a
  refine ⟨fun h => congrArg Host.Outcome.next (if_pos ?_), fun h => congrArg Host.Outcome.next (if_neg ?_)⟩
  · rwa [Bool.and_eq_true]
  · rwa [Bool.and_eq_true]

/-- Settles O48: the write sets one byte, and the mark where an operation in progress owns it. -/
theorem hostMemoryWriteStoresItsByte : Obligations.HostMemoryWriteStoresItsByte := by
  intro s a v hm
  refine ⟨s.hostMemWrite a v, rfl, fun b => ?_, rfl, ?_⟩
  · simp only [eq_comm (a := b)]
    exact byteAt_setByte hm a v b
  · change (s.intruded || (s.status.busy && (s.inInput a || s.inOutput a))) = true ↔ _
    simp only [Bool.or_eq_true, Bool.and_eq_true]

/-! ### Reset -/

theorem idle_word : Status.idle.word = 0#32 := by decide

theorem irqEnWord_of_disabled {s : State} (h : s.ie = false) : s.irqEnWord = 0#32 := by
  rw [State.irqEnWord, h]
  decide

/-- Settles O49: the registers are 0 by R130, and the bytes are those of `byteAt_resetStep`. -/
theorem resetStepClearsTheBlock : Obligations.ResetStepClearsTheBlock := by
  intro s hm hw
  have hbyte := byteAt_resetStep hm fun hb => req_le_two_pow (hw hb)
  refine ⟨s.resetStep, rfl, ⟨rfl, rfl, rfl, rfl, rfl⟩, ⟨idle_word, rfl, irqEnWord_of_disabled rfl, rfl, rfl⟩, phase_eq_idle.2 rfl,
    engineStep_idle rfl, fun a ha => ?_, fun a hb hout => ?_⟩
  · rw [hbyte, if_neg]
    rintro ⟨hb, hout⟩
    simp [hb, hout] at ha
  · rw [hbyte, if_pos ⟨hb, hout⟩]

/-- Settles O50: after reset WIDTH is 0, which PACK's first check rejects. -/
theorem packStraightAfterResetFails : Obligations.PackStraightAfterResetFails := by
  intro s rest hp
  have hreset := step_of_cons hp
  have hpack : step (State.resetStep { s with pending := .access (.write 0x00#6 .word (encode .pack)) :: rest }) =
      exec .pack (State.resetStep { s with pending := rest }) := by
    rw [step_of_cons rfl]
    exact hostAccess_write_encode .pack _
  have hwidth : ¬(State.resetStep { s with pending := rest }).widthLegal = true := by simp [widthLegal_iff]
  rw [exec_pack_of_illegal_width rfl hwidth] at hpack
  exact ⟨_, (runSteps_succ_of_next hreset).trans (runSteps_one hpack), statusWord_of_error .invalidWidth, rfl⟩

end Sys2Proof.Machine
end
